-- ==== Sys2Proof/Word.lean ====
section
/-! DEFINITION. The two word types of the block: a byte and a 16-bit command word. -/

namespace Sys2Proof

/-- A byte: 8 bits, unsigned (00_scope.md R5). -/
abbrev Byte := BitVec 8

/-- A 16-bit word: a command word `CW` (30_encoding.md R43) or `FAULT_INFO` (10_state.md R18). -/
abbrev Word := BitVec 16

end Sys2Proof
end

