-- ==== Sys2Proof/Config.lean ====
section
/-! DEFINITION. The parameters of the block (00_scope.md R4, R6): fixed for the life of the block, open in the spec. -/

namespace Sys2Proof

/-- The parameters that the spec leaves open. `cap` is `CAP`, "1 <= CAP <= 255" (R4); the bound is part of the type.
`allowCorruption` is `ALLOW_CORRUPTION` (R6, 40_state_machine.md R56). A claim about every `Config` is a claim about
every capacity and both settings. -/
structure Config where
  cap             : { n : Nat // 1 ≤ n ∧ n ≤ 255 }
  allowCorruption : Bool
  deriving DecidableEq, Repr

/-- The default parameters of R6: `CAP = 10`, `ALLOW_CORRUPTION = false`. -/
def Config.default : Config := { cap := ⟨10, by decide⟩, allowCorruption := false }

end Sys2Proof
end

