-- ==== Sys2Proof/Machine/State.lean ====
section
/-! DEFINITION. The state of the block, the reasons it stops, and its power-on value. -/

namespace Sys2Proof.Machine

/-- Whose turn it is (20_memory.md R34, R35). The order of turns is open (60_exceptions.md R77, 92_eei_decisions.md D26). -/
inductive Turn where
  /-- The foreground takes the command at the front of the command port. -/
  | foreground
  /-- The peripheral finishes a transfer in which it clocked in `rx`, "a free draw" (43_completion.md R64). -/
  | peripheral (rx : Byte)
  /-- The environment writes `v` into `STATE` (40_state_machine.md R56). -/
  | environment (v : Byte)
  /-- The outside adds a byte to the command port (10_state.md R20). No agent of the block acts.
  DESIGN CHOICE (log 4), safe. -/
  | arrive (b : Byte)
  deriving DecidableEq, Repr

/-- The stopping conditions that the block records (60_exceptions.md R70). -/
inductive Cause where
  | illegalCommand
  | spuriousCompletion
  | writeCollision
  | unwrittenRead
  deriving DecidableEq, Repr

/-- Why an operation inside a step ends the step. -/
inductive Stop where
  /-- The operation raises a cause with the info it records (60_exceptions.md R70). -/
  | raised (c : Cause) (info : Word)
  /-- The operation names a buffer cell `i >= CAP`, which does not exist (20_memory.md R27, R28). -/
  | noCell (i : Nat)
  deriving DecidableEq, Repr

/-- The reasons for which a step ends in a fault. -/
inductive Fault where
  /-- Raised by every instruction and by `step` when `FAULT != 0x00`: "no agent has a step" (60_exceptions.md R73).
  Safe: the block does nothing either. -/
  | stopped (code : Byte)
  /-- Raised by `MemRead` and `MemWrite` on an index `>= CAP`, where there is no cell (20_memory.md R27). No state that
  meets the invariant `State.Inv` reaches it (R28: "no access is ever out of range"). Safe. -/
  | noSuchCell (i : Nat)
  deriving DecidableEq, Repr

/-- The reasons for which an instruction is refused. -/
inductive Refusal where
  /-- Raised only by an arm of `exec` whose instruction has no meaning yet; there is none. Safe. -/
  | notModelled (mnemonic : String)
  /-- Raised by `DONE` when `BUSY = 0` (43_completion.md R64, vector X6) and by `CORRUPT` when `ALLOW_CORRUPTION = false`
  (40_state_machine.md R56, vector CR2): there is "no such step". Safe. -/
  | notEnabled (mnemonic : String)
  deriving DecidableEq, Repr

/-- The state. `state` to `txlog` are the components of 10_state.md R10; `cfg` holds the parameters (00_scope.md R6), which
no step changes (log 1); `cmdIn` and `responses` are the two ports (R20), and `sched` the order of the steps to come
(log 2). -/
structure State where
  /-- `CAP` and `ALLOW_CORRUPTION`. -/
  cfg : Config
  /-- `STATE` (R11). -/
  state : Byte
  /-- `BUF`: the written cells by rising index (R13). A cell not listed is unwritten and holds no value (R26). -/
  buf : List Host.Cell
  /-- `RIDX` (R14). -/
  ridx : Byte
  /-- `WIDX` (R15). -/
  widx : Byte
  /-- `PEND` (R16). -/
  pend : Byte
  /-- `BUSY` (R17). -/
  busy : Bool
  /-- `FAULT` (R18). -/
  fault : Byte
  /-- `FAULT_INFO` (R18). -/
  faultInfo : Word
  /-- `TXLOG`, oldest first (R19). -/
  txlog : List Byte
  /-- The command port: bytes arrived and not yet taken, oldest first (30_encoding.md R42). -/
  cmdIn : List Byte
  /-- The response port: one byte sequence per finished command, oldest first (30_encoding.md R49). -/
  responses : List (List Byte)
  /-- The turns to come, the next one first. -/
  sched : List Turn
  deriving DecidableEq, Repr

/-- The power-on state: the column "after power-on" of 10_state.md R26, with the default parameters of 00_scope.md R6. The
three model's own fields are empty: DESIGN CHOICE (log 13), unsafe for a claim that rests on it. -/
def State.reset : State :=
  { cfg := Config.default, state := 0x00#8, buf := [], ridx := 0#8, widx := 0#8, pend := 0#8, busy := false, fault := 0x00#8,
    faultInfo := 0#16, txlog := [], cmdIn := [], responses := [], sched := [] }

end Sys2Proof.Machine
end

