-- ==== Sys2Proof/Machine/Operands.lean ====
section
/-! DEFINITION. The operands of the block: zero-extended arguments, register values and buffer indices. -/

namespace Sys2Proof.Machine

/-- A register's or an argument's value as a natural number: "All values in this spec are unsigned" (00_scope.md R7);
`count = zext(ARG)`, `max_len = zext(ARG)` (30_encoding.md R45). -/
def zext (b : Byte) : Nat := b.toNat

/-- A natural number stored in an 8-bit register: "every rule shows that the stored value fits" (00_scope.md R8). -/
def toReg (n : Nat) : Byte := BitVec.ofNat 8 n

/-- A byte zero-extended into `FAULT_INFO` (10_state.md R18). -/
def infoOfByte (b : Byte) : Word := b.setWidth 16

/-- A buffer index zero-extended into `FAULT_INFO` (10_state.md R18). -/
def infoOfIndex (i : Nat) : Word := BitVec.ofNat 16 i

/-- `CAP` (00_scope.md R4). -/
def State.cap (s : State) : Nat := s.cfg.cap.val

/-- `next(i) = (i + 1) mod CAP` (20_memory.md R29). -/
def nextIndex (cap i : Nat) : Nat := (i + 1) % cap

/-- The cell where `ENQ` appends its next byte, `tail = (WIDX + PEND) mod CAP` (20_memory.md R29). -/
def State.tailIndex (s : State) : Nat := (zext s.widx + zext s.pend) % s.cap

/-- The number of unread received bytes, `(WIDX + CAP - RIDX) mod CAP` (20_memory.md R29). -/
def State.unreadCount (s : State) : Nat := (zext s.widx + s.cap - zext s.ridx) % s.cap

end Sys2Proof.Machine
end

