-- ==== Sys2Proof/Machine/Flags.lean ====
section
/-! DEFINITION. The block "has no status flags or condition codes" (10_state.md R22). What stands in their place: the four
codes of `STATE`, the codes of `FAULT`, and the status bytes of a response. -/

namespace Sys2Proof.Machine

/-- Idle (10_state.md R11). -/
def stIdle : Byte := 0x00#8
/-- Attached (10_state.md R11). -/
def stAttached : Byte := 0x01#8
/-- Sending (10_state.md R11). -/
def stSending : Byte := 0x02#8
/-- Complete (10_state.md R11). -/
def stComplete : Byte := 0x03#8

/-- "A `STATE` value from 0x04 to 0xFF is an invalid state" (10_state.md R12). -/
def invalidState (v : Byte) : Bool := 0x04#8 ≤ v

/-- The code a cause records in `FAULT` (60_exceptions.md R70). -/
def Cause.code : Cause → Byte
  | .illegalCommand => 0x01#8
  | .spuriousCompletion => 0x02#8
  | .writeCollision => 0x03#8
  | .unwrittenRead => 0x04#8

/-- The success bit and the Complete bit of a response (30_encoding.md R49). -/
def statusByte (b : Bool) : Byte := if b then 0x01#8 else 0x00#8

/-- A count in a response: one byte, 0 to 255 (30_encoding.md R49). -/
def countByte (n : Nat) : Byte := toReg n

end Sys2Proof.Machine
end

