-- ==== Sys2Proof/Machine/Ops.lean ====
section
/-! DEFINITION. The shared operations: field updates, the buffer, the data register, responses, and taking a stop. -/

namespace Sys2Proof.Machine

/-! ## Field updates -/

/-- `STATE <- v`. -/
def State.setState (s : State) (v : Byte) : State := { s with state := v }
/-- Replaces the buffer's cells. -/
def State.setBuf (s : State) (m : List Host.Cell) : State := { s with buf := m }
/-- `RIDX <- v`. -/
def State.setRidx (s : State) (v : Byte) : State := { s with ridx := v }
/-- `WIDX <- v`. -/
def State.setWidx (s : State) (v : Byte) : State := { s with widx := v }
/-- `PEND <- v`. -/
def State.setPend (s : State) (v : Byte) : State := { s with pend := v }
/-- `BUSY <- v`. -/
def State.setBusy (s : State) (v : Bool) : State := { s with busy := v }
/-- `TXLOG <- TXLOG ++ [b]` (10_state.md R19). -/
def State.logTx (s : State) (b : Byte) : State := { s with txlog := s.txlog ++ [b] }
/-- `respond(r)`: "emitted at the end of its step" (30_encoding.md R49). -/
def State.respond (s : State) (r : List Byte) : State := { s with responses := s.responses ++ [r] }
/-- Replaces the bytes waiting on the command port. -/
def State.setCmdIn (s : State) (bs : List Byte) : State := { s with cmdIn := bs }
/-- Replaces the turns to come. -/
def State.setSched (s : State) (ts : List Turn) : State := { s with sched := ts }
/-- `FAULT <- code(c)`, `FAULT_INFO <- info` (60_exceptions.md R70). -/
def State.setFault (s : State) (c : Cause) (info : Word) : State := { s with fault := c.code, faultInfo := info }

/-! ## The buffer as a list of cells, indices strictly rising -/

/-- The canonical form: indices strictly rising. A cell not listed holds no value, so no entry can equal it. -/
abbrev Memory.wf (m : List Host.Cell) : Prop := m.Pairwise (fun x y => x.1 < y.1)

/-- The byte last stored in cell `a`, or none where "no byte was ever stored there" (20_memory.md R28). -/
def Memory.read : List Host.Cell → Nat → Option Byte
  | [], _ => none
  | (k, b) :: m, a => if k = a then some b else Memory.read m a

/-- Stores `v` in cell `a`, keeping the canonical form. -/
def Memory.write : List Host.Cell → Nat → Byte → List Host.Cell
  | [], a, v => [(a, v)]
  | (k, b) :: m, a, v =>
    if a < k then (a, v) :: (k, b) :: m
    else if a = k then (a, v) :: m
    else (k, b) :: Memory.write m a v

/-- `BUF[i]` of a state, or none where the cell is unwritten. -/
def State.cell (s : State) (i : Nat) : Option Byte := Memory.read s.buf i

/-- `MemRead(i, 1)`; an unwritten cell raises `UNWRITTEN_READ(i)` (20_memory.md R28, 60_exceptions.md R75). -/
def memRead (s : State) (i : Nat) : Except Stop Byte :=
  if i < s.cap then
    match s.cell i with
    | some b => .ok b
    | none => .error (.raised .unwrittenRead (infoOfIndex i))
  else .error (.noCell i)

/-- `MemWrite(i, 1, v)` (20_memory.md R28). -/
def memWrite (s : State) (i : Nat) (v : Byte) : Except Stop State :=
  if i < s.cap then .ok (s.setBuf (Memory.write s.buf i v)) else .error (.noCell i)

/-! ## The peripheral -/

/-- `DataRegWrite(b)`: starts a transfer of `b`, or raises `WRITE_COLLISION(b)` while one is in flight (20_memory.md R33,
60_exceptions.md R74). -/
def dataRegWrite (s : State) (b : Byte) : Except Stop State :=
  if s.busy then .error (.raised .writeCollision (infoOfByte b)) else .ok ((s.setBusy true).logTx b)

/-- `DataRegWrite(MemRead(WIDX, 1))`: sends the oldest unsent byte. The one way both `ENQ` (42_enqueue.md R60) and `DONE`
(43_completion.md R63) write the data register. -/
def sendOldest (s : State) : Except Stop State :=
  match memRead s (zext s.widx) with
  | .ok b => dataRegWrite s b
  | .error e => .error e

/-! ## Stopping and running -/

/-- Takes a stop: "A step that raises a fault or refuses has no effect but `FAULT` and `FAULT_INFO`" (60_exceptions.md
R73). `s` is the state before the step's own effects, which are all discarded. There is no return from it: "`FAULT` is
never cleared". -/
def takeStop (s : State) : Stop → Host.Outcome State Fault Refusal
  | .raised c info => .next (s.setFault c info)
  | .noCell i => .fault (.noSuchCell i)

/-- The end of a step that began in `s`: its result, or the stop it ran into. -/
def finish (s : State) : Except Stop State → Host.Outcome State Fault Refusal
  | .ok t => .next t
  | .error e => takeStop s e

/-- Once `FAULT` is not 0x00, "no agent has a step: no command is taken, no `DONE`, no `CORRUPT`" (60_exceptions.md R73). -/
def whileRunning (s : State) (o : Host.Outcome State Fault Refusal) : Host.Outcome State Fault Refusal :=
  if s.fault = 0x00#8 then o else .fault (.stopped s.fault)

end Sys2Proof.Machine
end

