-- ==== Sys2Proof/Machine/AttachRelease.lean ====
section
/-! DEFINITION. The cooperative lock: `ATTACH` and `RELEASE` (41_attach_release.md R57 to R59). -/

namespace Sys2Proof.Machine

/-- `ATTACH` (R57): succeeds in Idle alone. -/
def execAttach (s : State) : Host.Outcome State Fault Refusal :=
  whileRunning s <| .next <|
    if s.state = stIdle then (s.setState stAttached).respond [statusByte true]
    else s.respond [statusByte false]

/-- `RELEASE` (R58): succeeds in Complete with nothing pending alone. -/
def execRelease (s : State) : Host.Outcome State Fault Refusal :=
  whileRunning s <| .next <|
    if s.state = stComplete ∧ s.pend = 0#8 then (s.setState stIdle).respond [statusByte true]
    else s.respond [statusByte false]

end Sys2Proof.Machine
end

