-- ==== Sys2Proof/Machine/Completion.lean ====
section
/-! DEFINITION. The byte-completion handler: the event `DONE(rx)` (43_completion.md R63 to R65). -/

namespace Sys2Proof.Machine

/-- Step 4 of R63: continues the chain, or finishes. -/
def continueOrFinish (s : State) : Except Stop State :=
  if 0 < zext s.pend then sendOldest s else .ok (s.setState stComplete)

/-- The body of R63. -/
def complete (rx : Byte) (s : State) : Except Stop State :=
  if zext s.pend = 0 then .error (.raised .spuriousCompletion (infoOfByte rx))
  else
    match memWrite (s.setBusy false) (zext s.widx) rx with
    | .ok t =>
      continueOrFinish ((t.setWidx (toReg (nextIndex t.cap (zext t.widx)))).setPend (toReg (zext t.pend - 1)))
    | .error e => .error e

/-- `DONE(rx)` (R63), "enabled exactly when `BUSY = 1` and `FAULT = 0x00`" (R64). -/
def execDone (rx : Byte) (s : State) : Host.Outcome State Fault Refusal :=
  whileRunning s (if s.busy then finish s (complete rx s) else .refused (.notEnabled "DONE"))

end Sys2Proof.Machine
end

