-- ==== Sys2Proof/Machine/Control.lean ====
section
/-! DEFINITION. `INIT`, `POLL`, the illegal command word and the event `CORRUPT`. -/

namespace Sys2Proof.Machine

/-- `INIT` (70_reset_and_hazards.md R83): writes `STATE`, `RIDX`, `WIDX`, `PEND` and nothing else. -/
def execInit (s : State) : Host.Outcome State Fault Refusal :=
  whileRunning s (.next (((((s.setState stIdle).setRidx 0#8).setWidx 0#8).setPend 0#8).respond []))

/-- The state after the passive bookkeeping of `POLL` (40_state_machine.md R55). -/
def pollState (s : State) : Byte :=
  if s.state = stSending ∧ s.pend = 0#8 then stComplete
  else if invalidState s.state then stIdle
  else s.state

/-- `POLL` (40_state_machine.md R55): writes `STATE` only. -/
def execPoll (s : State) : Host.Outcome State Fault Refusal :=
  whileRunning s (.next ((s.setState (pollState s)).respond []))

/-- A word that spells no command: `refuse ILLEGAL_COMMAND(CW)` (60_exceptions.md R71). No response. -/
def execIllegal (cw : Word) (s : State) : Host.Outcome State Fault Refusal :=
  whileRunning s (takeStop s (.raised .illegalCommand cw))

/-- `CORRUPT(v)` (40_state_machine.md R56): `STATE <- v`, only when `ALLOW_CORRUPTION`. -/
def execCorrupt (v : Byte) (s : State) : Host.Outcome State Fault Refusal :=
  whileRunning s (if s.cfg.allowCorruption then .next (s.setState v) else .refused (.notEnabled "CORRUPT"))

end Sys2Proof.Machine
end

