-- ==== Sys2Proof/Machine/Enqueue.lean ====
section
/-! DEFINITION. `ENQ`: append bytes to the ring buffer and start a transfer (42_enqueue.md R60). -/

namespace Sys2Proof.Machine

/-- Step 2 of R60: appends bytes at the tail while `PEND < CAP`. Answers the state and the bytes that did not fit. -/
def fillBuffer : List Byte → State → Except Stop (State × List Byte)
  | [], s => .ok (s, [])
  | b :: bs, s =>
    if zext s.pend < s.cap then
      match memWrite s s.tailIndex b with
      | .ok t => fillBuffer bs (t.setPend (toReg (zext t.pend + 1)))
      | .error e => .error e
    else .ok (s, b :: bs)

/-- The guard of step 3 of R60: Attached or Complete, and something pending (90_conflicts.md C2). -/
def startsTransfer (s : State) : Bool :=
  (s.state = stAttached ∨ s.state = stComplete) ∧ 0 < zext s.pend

/-- Step 3 of R60: starts the hardware if the channel is reserved and idle. -/
def startTransfer (s : State) : Except Stop State :=
  if startsTransfer s then
    match sendOldest s with
    | .ok t => .ok (t.setState stSending)
    | .error e => .error e
  else .ok s

/-- Steps 1 to 4 of R60. The response is the count of bytes that did not fit. -/
def enqueue (data : List Byte) (s : State) : Except Stop State :=
  match fillBuffer data (s.setRidx s.widx) with
  | .ok (t, left) =>
    match startTransfer t with
    | .ok u => .ok (u.respond [countByte left.length])
    | .error e => .error e
  | .error e => .error e

/-- `ENQ data` (R60), one atomic step (20_memory.md R35, R61). -/
def execEnq (data : List Byte) (s : State) : Host.Outcome State Fault Refusal :=
  whileRunning s (finish s (enqueue data s))

end Sys2Proof.Machine
end

