-- ==== Sys2Proof/Machine/Readout.lean ====
section
/-! DEFINITION. `READ`, the dequeue, and `ISC`, the status query (44_readout_status.md R66 to R68). -/

namespace Sys2Proof.Machine

/-- The loop of R66: copies at most `n` bytes, until `RIDX = WIDX`. Answers the state and the bytes, oldest first. -/
def copyOut : Nat → State → Except Stop (State × List Byte)
  | 0, s => .ok (s, [])
  | n + 1, s =>
    if s.ridx = s.widx then .ok (s, [])
    else
      match memRead s (zext s.ridx) with
      | .ok b =>
        match copyOut n (s.setRidx (toReg (nextIndex s.cap (zext s.ridx)))) with
        | .ok (t, out) => .ok (t, b :: out)
        | .error e => .error e
      | .error e => .error e

/-- The body of R66: "valid only in `Complete` state; returns 0 immediately otherwise". -/
def readOut (maxLen : Byte) (s : State) : Except Stop State :=
  if s.state = stComplete then
    match copyOut (zext maxLen) s with
    | .ok (t, out) => .ok (t.respond (countByte out.length :: out))
    | .error e => .error e
  else .ok (s.respond [countByte 0])

/-- `READ max_len` (R66). -/
def execRead (maxLen : Byte) (s : State) : Host.Outcome State Fault Refusal :=
  whileRunning s (finish s (readOut maxLen s))

/-- `ISC` (R67): "A pure, side-effect-free check". -/
def execIsc (s : State) : Host.Outcome State Fault Refusal :=
  whileRunning s <| .next <|
    if s.state = stComplete then s.respond [statusByte true] else s.respond [statusByte false]

end Sys2Proof.Machine
end

