-- ==== Sys2Proof/Syntax.lean ====
section
/-! DEFINITION. The instructions of the block: its seven commands, the illegal command word, and its two events. -/

namespace Sys2Proof

/-- One constructor per mnemonic of spec/opcode_table.json. The table's seven rows `illegal` are the pieces of one set of
words, those of 30_encoding.md R46, with one effect (60_exceptions.md R71): one constructor, which carries the word. -/
inductive Instr where
  /-- `INIT`, CW = 0x0100 (70_reset_and_hazards.md R83). -/
  | init
  /-- `ATTACH`, CW = 0x0200 (41_attach_release.md R57). -/
  | attach
  /-- `RELEASE`, CW = 0x0300 (41_attach_release.md R58). -/
  | release
  /-- `ENQ data`, CW = 0x04cc with `cc` the number of data bytes (42_enqueue.md R60); `count = |data|` always (R45). -/
  | enq (data : List Byte)
  /-- `READ max_len`, CW = 0x05mm (44_readout_status.md R66). -/
  | read (maxLen : Byte)
  /-- `ISC`, CW = 0x0600 (44_readout_status.md R67). -/
  | isc
  /-- `POLL`, CW = 0x0700 (40_state_machine.md R55). -/
  | poll
  /-- A command word that spells no command (30_encoding.md R46, 60_exceptions.md R71). -/
  | illegal (cw : Word)
  /-- The event `DONE(rx)`: byte complete, `rx` the byte clocked in (43_completion.md R63). It has no encoding (R52). -/
  | done (rx : Byte)
  /-- The event `CORRUPT(v)`: fault injection (40_state_machine.md R56). It has no encoding (R52). -/
  | corrupt (v : Byte)
  deriving DecidableEq, Repr

end Sys2Proof
end

