-- ==== Sys2Proof/Machine/Dispatch.lean ====
section
/-! DEFINITION. One arm per instruction. -/

namespace Sys2Proof.Machine

def exec (i : Instr) (s : State) : Host.Outcome State Fault Refusal :=
  match i with
  | .init => Sys2Proof.Machine.execInit s
  | .attach => Sys2Proof.Machine.execAttach s
  | .release => Sys2Proof.Machine.execRelease s
  | .enq data => Sys2Proof.Machine.execEnq data s
  | .read maxLen => Sys2Proof.Machine.execRead maxLen s
  | .isc => Sys2Proof.Machine.execIsc s
  | .poll => Sys2Proof.Machine.execPoll s
  | .illegal cw => Sys2Proof.Machine.execIllegal cw s
  | .done rx => Sys2Proof.Machine.execDone rx s
  | .corrupt v => Sys2Proof.Machine.execCorrupt v s

end Sys2Proof.Machine
end

