-- ==== Sys2Proof/WellFormed.lean ====
section
/-! DEFINITION. Which terms of `Instr` the spec gives the machine: the bounds that the encoding puts on operands. -/

namespace Sys2Proof

/-- The illegal command words, in the words of 30_encoding.md R46: `OP = 0x00`, or `OP >= 0x08`, or `OP` is one of 0x01,
0x02, 0x03, 0x06, 0x07 and `ARG != 0x00`. -/
def isIllegalWord (op arg : Byte) : Bool :=
  op == 0x00#8 || 0x08#8 ≤ op || ([0x01#8, 0x02#8, 0x03#8, 0x06#8, 0x07#8].contains op && arg != 0x00#8)

/-- `ENQ` has at most 255 data bytes (R45, R50); an `illegal` term carries an illegal word (R46). -/
def Instr.wellFormed : Instr → Bool
  | .init => true
  | .attach => true
  | .release => true
  | .enq data => data.length ≤ 255
  | .read _ => true
  | .isc => true
  | .poll => true
  | .illegal cw => isIllegalWord (cw.extractLsb' 8 8) (cw.extractLsb' 0 8)
  | .done _ => true
  | .corrupt _ => true

/-- The instructions that come over the command port; the events `DONE` and `CORRUPT` do not (R52). -/
def Instr.isCommand : Instr → Bool
  | .init => true
  | .attach => true
  | .release => true
  | .enq _ => true
  | .read _ => true
  | .isc => true
  | .poll => true
  | .illegal _ => true
  | .done _ => false
  | .corrupt _ => false

end Sys2Proof
end

