-- ==== Sys2Proof/Decode.lean ====
section
/-! DEFINITION. From the bytes of the command port to an instruction, and back (30_encoding.md R42 to R48). -/

namespace Sys2Proof

/-- What the decoder makes of the bytes on the command port. -/
inductive Decoded where
  /-- All bytes of the command have arrived: the instruction, and the bytes after it. -/
  | taken (i : Instr) (rest : List Byte)
  /-- Rejected by name: the command has only partly arrived, "a partly arrived command has no step" (R42). -/
  | partlyArrived
  deriving DecidableEq, Repr

/-- `CW = {OP, ARG}` (R43). -/
def commandWord (op arg : Byte) : Word := op ++ arg

/-- The opcode map of R44 for the words whose operands are all in `CW`; every other word is illegal (R46, R47). -/
def decodeWord (op arg : Byte) : Instr :=
  if op = 0x05#8 then .read arg
  else if op = 0x01#8 ∧ arg = 0x00#8 then .init
  else if op = 0x02#8 ∧ arg = 0x00#8 then .attach
  else if op = 0x03#8 ∧ arg = 0x00#8 then .release
  else if op = 0x06#8 ∧ arg = 0x00#8 then .isc
  else if op = 0x07#8 ∧ arg = 0x00#8 then .poll
  else .illegal (commandWord op arg)

/-- "read 2 bytes; if `OP = 0x04`, read `ARG` more" (R48). An illegal word "reads no further bytes" (R46). -/
def decode : List Byte → Decoded
  | op :: arg :: rest =>
    if op = 0x04#8 then
      if arg.toNat ≤ rest.length then .taken (.enq (rest.take arg.toNat)) (rest.drop arg.toNat)
      else .partlyArrived
    else .taken (decodeWord op arg) rest
  | _ => .partlyArrived

/-- The length of a command in bytes, told from its first two (R48). -/
def commandLength (op arg : Byte) : Nat :=
  if op = 0x04#8 then 2 + arg.toNat else 2

/-- The bytes of a well-formed instruction (R42 to R45, R50). The events have no encoding (R52). -/
def encode : Instr → Option (List Byte)
  | .init => some [0x01#8, 0x00#8]
  | .attach => some [0x02#8, 0x00#8]
  | .release => some [0x03#8, 0x00#8]
  | .enq data => some (0x04#8 :: BitVec.ofNat 8 data.length :: data)
  | .read maxLen => some [0x05#8, maxLen]
  | .isc => some [0x06#8, 0x00#8]
  | .poll => some [0x07#8, 0x00#8]
  | .illegal cw => some [cw.extractLsb' 8 8, cw.extractLsb' 0 8]
  | .done _ => none
  | .corrupt _ => none

/-- The bytes, in the order of the command port, of the instruction that spec/opcode_table.json numbers as `w`: the first
word is the 16-bit `CW` (R43), its high byte `OP` sent first; data byte `j` follows in bits `16 + 8 j` and up; every bit
from `nbits` on is 0. As many bytes as the command is long (R48). -/
def tableWordBytes (nbits w : Nat) : List Byte :=
  let v := w % 2 ^ nbits
  let op := BitVec.ofNat 8 (v / 2 ^ 8)
  let arg := BitVec.ofNat 8 v
  op :: arg :: (List.range (commandLength op arg - 2)).map (fun j => BitVec.ofNat 8 (v / 2 ^ (16 + 8 * j)))

/-- The instruction that `decode` reads from the word `w` of spec/opcode_table.json. -/
def decodeTableWord (nbits w : Nat) : Option Instr :=
  match decode (tableWordBytes nbits w) with
  | .taken i _ => some i
  | .partlyArrived => none

end Sys2Proof
end

