-- ==== Sys2Proof/Machine/Fetch.lean ====
section
/-! DEFINITION. Which instruction the next turn runs, and what taking it removes from the ports. The block has no program
counter (10_state.md R21): a command is taken from the front of the command port (30_encoding.md R42). -/

namespace Sys2Proof.Machine

/-- "`DONE(rx)` is enabled exactly when `BUSY = 1` and `FAULT = 0x00`" (43_completion.md R64). -/
def doneEnabled (s : State) : Bool := s.busy && s.fault == 0x00#8

/-- `CORRUPT(v)` is enabled "only when the parameter `ALLOW_CORRUPTION = true`, at any time the block has not stopped"
(40_state_machine.md R56). -/
def corruptEnabled (s : State) : Bool := s.cfg.allowCorruption && s.fault == 0x00#8

/-- The instruction that turn `t` runs in a state that has not stopped, and the bytes then left on the command port. None:
the turn's agent has no step (DESIGN CHOICE, log 3). -/
def pick (t : Turn) (s : State) : Option (Instr × List Byte) :=
  match t with
  | .foreground =>
    match decode s.cmdIn with
    | .taken i rest => some (i, rest)
    | .partlyArrived => none
  | .peripheral rx => if doneEnabled s then some (.done rx, s.cmdIn) else none
  | .environment v => if corruptEnabled s then some (.corrupt v, s.cmdIn) else none
  | .arrive _ => none

/-- The bytes on the command port after a turn that runs no instruction. -/
def cmdInAfterIdle (t : Turn) (s : State) : List Byte :=
  match t with
  | .arrive b => s.cmdIn ++ [b]
  | .foreground => s.cmdIn
  | .peripheral _ => s.cmdIn
  | .environment _ => s.cmdIn

/-- The state in which a taken instruction runs: its turn is used up and its bytes have left the command port. -/
def State.afterTaking (s : State) (ts : List Turn) (rest : List Byte) : State := (s.setSched ts).setCmdIn rest

/-- A foreground turn next, with the bytes `bs` at the front of the command port. -/
def State.withCommand (s : State) (bs : List Byte) : State :=
  (s.setSched (.foreground :: s.sched)).setCmdIn (bs ++ s.cmdIn)

end Sys2Proof.Machine
end

