-- ==== Sys2Proof/Machine/Step.lean ====
section
/-! DEFINITION. One step: the next turn of the schedule, whole and atomic (20_memory.md R35). -/

namespace Sys2Proof.Machine

/-- A stopped block has no step (60_exceptions.md R73). Otherwise the next turn is used up: its instruction runs, or, where
its agent has no step, nothing else changes but a byte's arrival. With no turn left nothing happens until the outside
adds one (logs 2, 15). -/
def step (s : State) : Host.Outcome State Fault Refusal :=
  if s.fault = 0x00#8 then
    match s.sched with
    | [] => .next s
    | t :: ts =>
      match pick t s with
      | some (i, rest) => exec i (s.afterTaking ts rest)
      | none => .next (s.afterTaking ts (cmdInAfterIdle t s))
  else .fault (.stopped s.fault)

/-- `s` with the instruction of the opcode table's word `w` at the front of the command port and the next turn the
foreground's. -/
def State.withFetchWord (s : State) (nbits w : Nat) : State := s.withCommand (tableWordBytes nbits w)

end Sys2Proof.Machine
end

