-- ==== Sys2Proof/Safety.lean ====
section
/-! DEFINITION. What claims speak of: the two regions of the ring buffer, the invariant of every run, clean states,
and runs: finite ones, and unbounded ones with the weak fairness of 43_completion.md R64. -/

namespace Sys2Proof.Machine

/-- The pending region: cells `(WIDX + k) mod CAP` for `0 <= k < PEND`, oldest first (00_scope.md, glossary). -/
def State.pendingCells (s : State) : List (Option Byte) :=
  (List.range (zext s.pend)).map fun k => s.cell ((zext s.widx + k) % s.cap)

/-- The read window: cells `(RIDX + k) mod CAP` for `0 <= k < (WIDX - RIDX) mod CAP`, oldest first (00_scope.md,
glossary). -/
def State.unreadCells (s : State) : List (Option Byte) :=
  (List.range s.unreadCount).map fun k => s.cell ((zext s.ridx + k) % s.cap)

/-- The number of bytes `ENQ` queues: `q = min(count, CAP - PEND0)` (42_enqueue.md R62). -/
def queuedCount (data : List Byte) (s : State) : Nat := min data.length (s.cap - zext s.pend)

/-- `ENQ data` would start a transfer: the state on entry is Attached or Complete, and a byte is pending once the bytes that
fit are queued (42_enqueue.md R60, step 3). -/
abbrev enqStarts (data : List Byte) (s : State) : Prop :=
  (s.state = 0x01#8 ∨ s.state = 0x03#8) ∧ 0 < zext s.pend + queuedCount data s

/-- `ENQ data` collides: it would start a transfer while one is in flight (60_exceptions.md R74). -/
abbrev enqCollides (data : List Byte) (s : State) : Prop := enqStarts data s ∧ s.busy = true

/-- The indices and the count lie in their ranges (10_state.md R14, R15, R16). -/
abbrev State.indexInv (s : State) : Prop :=
  zext s.ridx < s.cap ∧ zext s.widx < s.cap ∧ zext s.pend ≤ s.cap

/-- The buffer is in canonical form and lists only cells that exist (20_memory.md R27). -/
abbrev State.bufferInv (s : State) : Prop :=
  Memory.wf s.buf ∧ ∀ c ∈ s.buf, c.1 < s.cap

/-- Every cell of the two regions has been written (10_state.md R25: "every byte a rule reads from `BUF` was written
earlier"). -/
abbrev State.writtenInv (s : State) : Prop :=
  (∀ k < zext s.pend, (s.cell ((zext s.widx + k) % s.cap)).isSome) ∧
  (∀ k < s.unreadCount, (s.cell ((zext s.ridx + k) % s.cap)).isSome)

/-- `FAULT` holds 0x00 with `FAULT_INFO` 0 (10_state.md R18), or the code of a stop that some run reaches: not
`UNWRITTEN_READ` (60_exceptions.md R70, R75). -/
abbrev State.faultInv (s : State) : Prop :=
  (s.fault = 0x00#8 ∧ s.faultInfo = 0#16) ∨ s.fault = 0x01#8 ∨ s.fault = 0x02#8 ∨ s.fault = 0x03#8

/-- "the pending region and the unread cells do not overlap" (10_state.md R25): the one begins at `WIDX`, where the other
ends, and together they are no longer than the ring. -/
abbrev State.regionsInv (s : State) : Prop := zext s.pend + s.unreadCount ≤ s.cap

/-- The invariant of every run. -/
abbrev State.Inv (s : State) : Prop :=
  s.indexInv ∧ s.bufferInv ∧ s.writtenInv ∧ s.faultInv ∧ s.regionsInv

/-- What holds "in every state of a clean run": (a) to (d) of 10_state.md R24. -/
abbrev State.Clean (s : State) : Prop :=
  invalidState s.state = false ∧
  (s.state = stSending ↔ s.busy = true) ∧
  (s.state = stSending → 1 ≤ zext s.pend) ∧
  (s.state = stComplete → s.pend = 0#8)

/-- A clean run has "no `CORRUPT` step and no `INIT` step taken while `BUSY = 1`" (10_state.md R24). -/
def cleanInstr (i : Instr) (s : State) : Bool :=
  match i with
  | .init => !s.busy
  | .attach => true
  | .release => true
  | .enq _ => true
  | .read _ => true
  | .isc => true
  | .poll => true
  | .illegal _ => true
  | .done _ => true
  | .corrupt _ => false

/-- The instruction that the next step runs, if it runs one. -/
def nextInstr (s : State) : Option Instr :=
  match s.sched with
  | [] => none
  | t :: _ => (pick t s).map (·.1)

/-- The next step is one that a clean run may take. -/
def cleanStep (s : State) : Bool :=
  match nextInstr s with
  | some i => cleanInstr i s
  | none => true

/-- `n` steps in a row, "the result of applying its steps, one after another" (20_memory.md R36). -/
def run : Nat → State → Host.Outcome State Fault Refusal
  | 0, s => .next s
  | n + 1, s =>
    match step s with
    | .next t => run n t
    | .fault r => .fault r
    | .refused r => .refused r

/-! ## Unbounded runs and weak fairness -/

/-- The outside adds turns behind those already waiting. -/
def State.feed (s : State) (ts : List Turn) : State := s.setSched (s.sched ++ ts)

/-- An unbounded run: its states, and the turns that the outside adds before each step. The turns are free, so every order
of whole steps is one of these (20_memory.md R35). A run that stops, or has only begun, is a finite one: `run`. -/
structure Run where
  state : Nat → State
  added : Nat → List Turn

/-- The state in which step `n` is taken. -/
def Run.before (r : Run) (n : Nat) : State := (r.state n).feed (r.added n)

/-- Each state is what the step before it answers. -/
def Run.valid (r : Run) : Prop := ∀ n, step (r.before n) = .next (r.state (n + 1))

/-- Step `n` of the run is the completion `DONE(rx)`. -/
def Run.takesDone (r : Run) (n : Nat) (rx : Byte) : Prop := nextInstr (r.before n) = some (.done rx)

/-- Weak fairness of the peripheral: "a `BUSY = 1` that stays enabled is eventually followed by a `DONE`" (43_completion.md
R64, 92_eei_decisions.md D8). It is all that is said of how long a transfer takes (93_implementation_defined.md I9), and
the foreground has none (I16). -/
def Run.fair (r : Run) : Prop :=
  ∀ n, (∀ m, n ≤ m → doneEnabled (r.state m) = true) → ∃ m rx, n ≤ m ∧ r.takesDone m rx

/-! ## Sequences of instructions -/

/-- Instructions run one after another, whatever the schedule (20_memory.md R35, R36). -/
def execAll : List Instr → State → Host.Outcome State Fault Refusal
  | [], s => .next s
  | i :: is, s =>
    match exec i s with
    | .next t => execAll is t
    | .fault r => .fault r
    | .refused r => .refused r

/-- `i`, run in `s`, takes the channel back to Idle: a `RELEASE` that succeeds, a recovery by `POLL`, an `INIT`, or a
corruption to Idle (40_state_machine.md R54). -/
abbrev returnsToIdle (i : Instr) (s : State) : Prop :=
  i = .init ∨ (i = .release ∧ s.state = 0x03#8 ∧ s.pend = 0#8) ∨ (i = .poll ∧ 0x04#8 ≤ s.state) ∨ i = .corrupt 0x00#8

/-- An operand-less command with opcode `op`: its word is legal with `ARG = 0x00` and illegal otherwise (30_encoding.md
R44, R46). -/
abbrev operandless (op : Byte) (i : Instr) : Prop :=
  ∀ (arg : Byte) (rest : List Byte),
    decode (op :: arg :: rest) = .taken (if arg = 0x00#8 then i else .illegal (commandWord op arg)) rest

end Sys2Proof.Machine
end

