-- ==== Sys2Proof/Certificates/Slice0/Obligations.lean ====
section
/-! DEFINITION. The statements for the provers. Each docstring names the rule of spec/ it formalises, and says where a clause
is the model's own. -/

open Sys2Proof Sys2Proof.Machine

/-! ## Decoding and encoding -/

/-- 30_encoding.md R42 to R48: no bit of an encoding is dropped, whatever follows on the port; the commands are exactly what
has an encoding (R52). -/
def Obligations.DecodeOfEncodeGivesInstructionBack : Prop :=
  (∀ (i : Instr) (bs rest : List Byte), i.wellFormed = true → encode i = some bs →
    decode (bs ++ rest) = .taken i rest) ∧
  ∀ i : Instr, (encode i).isSome = i.isCommand

/-- 30_encoding.md R42 to R48, the other direction: the decoder takes exactly the bytes of the instruction it answers, and
answers only well-formed instructions. -/
def Obligations.EncodeOfDecodeGivesBytesBack : Prop :=
  ∀ (bs rest : List Byte) (i : Instr), decode bs = .taken i rest →
    i.wellFormed = true ∧ ∃ p, encode i = some p ∧ bs = p ++ rest

/-- 30_encoding.md R47, with the illegal words spelled out as in R46. -/
def Obligations.EveryWordIsOneCommandOrIllegal : Prop :=
  ∀ (op arg : Byte) (rest : List Byte), (op = 0x04#8 → arg.toNat ≤ rest.length) →
    ∃ i rest', decode (op :: arg :: rest) = .taken i rest' ∧ i.isCommand = true ∧
      if op = 0x00#8 ∨ 0x08#8 ≤ op ∨
          ((op = 0x01#8 ∨ op = 0x02#8 ∨ op = 0x03#8 ∨ op = 0x06#8 ∨ op = 0x07#8) ∧ arg ≠ 0x00#8)
      then i = .illegal (op ++ arg) ∧ rest' = rest
      else ∀ cw, i ≠ .illegal cw

/-- 30_encoding.md R44: a word of each row of the opcode map, written out from it. -/
def Obligations.OpcodeMapRowsDecode : Prop :=
  decode [0x01#8, 0x00#8] = .taken .init [] ∧
  decode [0x02#8, 0x00#8] = .taken .attach [] ∧
  decode [0x03#8, 0x00#8] = .taken .release [] ∧
  decode [0x04#8, 0x00#8] = .taken (.enq []) [] ∧
  decode [0x04#8, 0x04#8, 0xAA#8, 0xBB#8, 0xCC#8, 0xDD#8] = .taken (.enq [0xAA#8, 0xBB#8, 0xCC#8, 0xDD#8]) [] ∧
  decode [0x05#8, 0x0A#8] = .taken (.read 0x0A#8) [] ∧
  decode [0x06#8, 0x00#8] = .taken .isc [] ∧
  decode [0x07#8, 0x00#8] = .taken .poll [] ∧
  decode [0x00#8, 0x00#8] = .taken (.illegal 0x0000#16) [] ∧
  decode [0x01#8, 0x01#8] = .taken (.illegal 0x0101#16) [] ∧
  decode [0x07#8, 0x80#8] = .taken (.illegal 0x0780#16) [] ∧
  decode [0x08#8, 0x00#8] = .taken (.illegal 0x0800#16) [] ∧
  decode [0xFF#8, 0x00#8] = .taken (.illegal 0xFF00#16) []

/-- 30_encoding.md R48. -/
def Obligations.LengthIsToldByTheFirstTwoBytes : Prop :=
  decode [] = .partlyArrived ∧ (∀ op : Byte, decode [op] = .partlyArrived) ∧
  ∀ (op arg : Byte) (rest : List Byte),
    (decode (op :: arg :: rest) = .partlyArrived ↔ op = 0x04#8 ∧ rest.length < arg.toNat) ∧
    ∀ i rest', decode (op :: arg :: rest) = .taken i rest' →
      rest' = rest.drop (if op = 0x04#8 then arg.toNat else 0)

/-- 30_encoding.md R42: "The block takes a command as one step only when all its bytes have arrived". -/
def Obligations.ProperPrefixOfCommandIsNotTaken : Prop :=
  ∀ (i : Instr) (p q : List Byte), i.wellFormed = true → encode i = some (p ++ q) → q ≠ [] →
    decode p = .partlyArrived

/-! ## A step -/

/-- 30_encoding.md R42 and 20_memory.md R35: with the foreground's turn next (the schedule is the model's, log 2), a step is
the meaning of the decoded instruction, its turn used up and its bytes off the port. -/
def Obligations.StepRunsTheDecodedCommand : Prop :=
  ∀ (s : State) (ts : List Turn) (i : Instr) (rest : List Byte),
    s.fault = 0x00#8 → s.sched = .foreground :: ts → decode s.cmdIn = .taken i rest →
    step s = exec i { s with sched := ts, cmdIn := rest }

/-- 43_completion.md R64 and 40_state_machine.md R56: with the agent's turn next (log 2), an enabled event is a step. -/
def Obligations.StepRunsTheEnabledEvent : Prop :=
  ∀ (s : State) (ts : List Turn), s.fault = 0x00#8 →
    (∀ rx, s.sched = .peripheral rx :: ts → s.busy = true → step s = exec (.done rx) { s with sched := ts }) ∧
    (∀ v, s.sched = .environment v :: ts → s.cfg.allowCorruption = true →
      step s = exec (.corrupt v) { s with sched := ts })

/-- The model's choice (logs 3, 4): a turn whose agent has no step is used up and changes nothing else; a byte that arrives
joins the end of the command port; with no turn left nothing happens. That there is no step: 30_encoding.md R42,
43_completion.md R64, 40_state_machine.md R56. -/
def Obligations.TurnWithoutStepIsPassedOver : Prop :=
  ∀ (s : State) (ts : List Turn), s.fault = 0x00#8 →
    (s.sched = .foreground :: ts → decode s.cmdIn = .partlyArrived → step s = .next { s with sched := ts }) ∧
    (∀ rx, s.sched = .peripheral rx :: ts → s.busy = false → step s = .next { s with sched := ts }) ∧
    (∀ v, s.sched = .environment v :: ts → s.cfg.allowCorruption = false →
      step s = .next { s with sched := ts }) ∧
    (∀ b, s.sched = .arrive b :: ts → step s = .next { s with sched := ts, cmdIn := s.cmdIn ++ [b] }) ∧
    (s.sched = [] → step s = .next s)

/-- 30_encoding.md R42 to R48: the bytes of a command, put on the port before the bytes and turns already there, make the
very next step that command's meaning. -/
def Obligations.EncodedCommandOnThePortRuns : Prop :=
  ∀ (i : Instr) (bs : List Byte) (s : State), i.wellFormed = true → encode i = some bs → s.fault = 0x00#8 →
    step (s.withCommand bs) = exec i s

/-- A block that has not stopped is never stuck: `step` answers a next state. Where an instruction runs (a command taken
whole, or an enabled event), this is 70_reset_and_hazards.md R94, "No command blocks". Where the turn's agent has no step
(30_encoding.md R42, 43_completion.md R64), where a byte arrives and where no turn is left, that there is a next state is
the model's choice (logs 3, 4). -/
def Obligations.RunningBlockAlwaysTakesItsStep : Prop :=
  ∀ s : State, s.Inv → s.fault = 0x00#8 → ∃ t, step s = .next t

/-! ## The commands -/

/-- 70_reset_and_hazards.md R83 and R93: the encoding; what `INIT` writes and that it writes nothing else; that at power-on it
changes nothing but the response; and that taken while `BUSY = 1` it makes the completion that follows raise
`SPURIOUS_COMPLETION`. -/
def Obligations.InitResetsTheChannel : Prop :=
  operandless 0x01#8 .init ∧
  (∀ s : State, s.fault = 0x00#8 →
    exec .init s = .next { s with state := 0x00#8, ridx := 0#8, widx := 0#8, pend := 0#8, responses := s.responses ++ [[]] }) ∧
  exec .init State.reset = .next { State.reset with responses := State.reset.responses ++ [[]] } ∧
  ∀ (s : State) (rx : Byte), s.fault = 0x00#8 → s.busy = true →
    ∃ t, exec .init s = .next t ∧ t.busy = true ∧ t.pend = 0#8 ∧
      exec (.done rx) t = .next { t with fault := 0x02#8, faultInfo := rx.setWidth 16 }

/-- 41_attach_release.md R57 with the table of 40_state_machine.md R54: the encoding; success in Idle alone, `STATE` the only
register written; and that between two `ATTACH` steps that succeed, whatever else runs, a return to Idle lies: R57 names
`RELEASE` and recovery, R54 adds `INIT` and a corruption to Idle. -/
def Obligations.AttachSucceedsInIdleAlone : Prop :=
  operandless 0x02#8 .attach ∧
  (∀ s : State, s.fault = 0x00#8 →
    exec .attach s = .next (if s.state = 0x00#8
      then { s with state := 0x01#8, responses := s.responses ++ [[0x01#8]] }
      else { s with responses := s.responses ++ [[0x00#8]] })) ∧
  ∀ (is : List Instr) (s t u : State), exec .attach s = .next t → execAll is t = .next u →
    exec .attach u = .next { u with state := 0x01#8, responses := u.responses ++ [[0x01#8]] } →
    ∃ pre i post v, is = pre ++ i :: post ∧ execAll pre t = .next v ∧ returnsToIdle i v

/-- 41_attach_release.md R58: the encoding; success in Complete with nothing pending alone, `STATE` the only register
written. -/
def Obligations.ReleaseSucceedsInCompleteAlone : Prop :=
  operandless 0x03#8 .release ∧
  ∀ s : State, s.fault = 0x00#8 →
    exec .release s = .next (if s.state = 0x03#8 ∧ s.pend = 0#8
      then { s with state := 0x00#8, responses := s.responses ++ [[0x01#8]] }
      else { s with responses := s.responses ++ [[0x00#8]] })

/-- 44_readout_status.md R67: the encoding; the Complete bit and no other effect; and that in a clean state `[01]` means a
following `RELEASE` succeeds. -/
def Obligations.IscReportsComplete : Prop :=
  operandless 0x06#8 .isc ∧
  (∀ s : State, s.fault = 0x00#8 →
    exec .isc s = .next { s with responses := s.responses ++ [[if s.state = 0x03#8 then 0x01#8 else 0x00#8]] }) ∧
  ∀ s t : State, s.Clean → exec .isc s = .next t → t.responses = s.responses ++ [[0x01#8]] →
    s.pend = 0#8 ∧ exec .release t = .next { t with state := 0x00#8, responses := t.responses ++ [[0x01#8]] }

/-- 40_state_machine.md R55: the encoding; the two transitions of `POLL`, `STATE` the only register written; that in a clean
state it does not change `STATE`; and that Sending with nothing pending, where its first transition fires, comes from
`CORRUPT(0x02)` alone. -/
def Obligations.PollRecoversInvalidStates : Prop :=
  operandless 0x07#8 .poll ∧
  (∀ s : State, s.fault = 0x00#8 →
    exec .poll s = .next { s with
      state := if s.state = 0x02#8 ∧ s.pend = 0#8 then 0x03#8 else if 0x04#8 ≤ s.state then 0x00#8 else s.state,
      responses := s.responses ++ [[]] }) ∧
  (∀ s : State, s.Clean → s.fault = 0x00#8 → exec .poll s = .next { s with responses := s.responses ++ [[]] }) ∧
  ∀ (i : Instr) (s t : State), exec i s = .next t → t.state = 0x02#8 → t.pend = 0#8 →
    s.pend = 0#8 ∧ (s.state = 0x02#8 ∨ i = .corrupt 0x02#8)

/-- 40_state_machine.md R56: `CORRUPT(v)` writes `STATE` alone, any `v`, when `ALLOW_CORRUPTION`; otherwise "it never
happens"; and "it is the only step that writes an invalid value" (10_state.md R12). -/
def Obligations.CorruptWritesStateAlone : Prop :=
  (∀ (s : State) (v : Byte), s.fault = 0x00#8 →
    (s.cfg.allowCorruption = true → exec (.corrupt v) s = .next { s with state := v }) ∧
    (s.cfg.allowCorruption = false → ∀ t, exec (.corrupt v) s ≠ .next t)) ∧
  ∀ (i : Instr) (s t : State), (∀ v, i ≠ .corrupt v) → exec i s = .next t →
    t.state = s.state ∨ t.state = 0x00#8 ∨ t.state = 0x01#8 ∨ t.state = 0x02#8 ∨ t.state = 0x03#8

/-- 60_exceptions.md R71: an illegal word, met on the command port or run as an instruction, records `ILLEGAL_COMMAND` and
the word, with no response and no other effect. -/
def Obligations.IllegalWordIsRecorded : Prop :=
  (∀ (s : State) (cw : Word), s.fault = 0x00#8 →
    exec (.illegal cw) s = .next { s with fault := 0x01#8, faultInfo := cw }) ∧
  ∀ (s : State) (op arg : Byte), s.fault = 0x00#8 → isIllegalWord op arg = true →
    step (s.withCommand [op, arg]) = .next { s with fault := 0x01#8, faultInfo := op ++ arg }

/-- 42_enqueue.md R60: the encoding; every write of `ENQ`, with its frame, when it does not collide; the collision when it
would start a transfer while `BUSY = 1` (60_exceptions.md R74), with the oldest byte recorded; and that a clean state has
none. The cells stored to are
computed as the model's `fillBuffer` does. -/
def Obligations.EnqAppendsAndStarts : Prop :=
  (∀ data rest : List Byte, data.length ≤ 255 →
    decode (0x04#8 :: BitVec.ofNat 8 data.length :: (data ++ rest)) = .taken (.enq data) rest) ∧
  ∀ (s : State) (data : List Byte), s.Inv → s.fault = 0x00#8 → data.length ≤ 255 →
    let q := queuedCount data s
    (s.Clean → ¬ enqCollides data s) ∧
    if enqCollides data s then
      ∃ b, (s.pendingCells ++ data.map some).head? = some (some b) ∧
        exec (.enq data) s = .next { s with fault := 0x03#8, faultInfo := b.setWidth 16 }
    else
      ∃ t, exec (.enq data) s = .next t ∧
        t.ridx = s.widx ∧ t.widx = s.widx ∧ zext t.pend = zext s.pend + q ∧
        (∀ k, k < q → t.cell ((zext s.widx + (zext s.pend + k)) % s.cap) = data[k]?) ∧
        (∀ a, (∀ k, k < q → a ≠ (zext s.widx + (zext s.pend + k)) % s.cap) → t.cell a = s.cell a) ∧
        (enqStarts data s → t.state = 0x02#8 ∧ t.busy = true ∧
          ∃ b, (s.pendingCells ++ data.map some).head? = some (some b) ∧ t.txlog = s.txlog ++ [b]) ∧
        (¬ enqStarts data s → t.state = s.state ∧ t.busy = s.busy ∧ t.txlog = s.txlog) ∧
        t.responses = s.responses ++ [[BitVec.ofNat 8 (data.length - q)]] ∧
        t.cfg = s.cfg ∧ t.fault = s.fault ∧ t.faultInfo = s.faultInfo ∧ t.cmdIn = s.cmdIn ∧ t.sched = s.sched

/-- 42_enqueue.md R62: `q = min(count, CAP - PEND0)`, `rem = count - q`, and `PEND` never beyond `CAP`, for every `ENQ` that
does not collide. -/
def Obligations.EnqQueuesWhatFitsAndReportsTheRest : Prop :=
  ∀ (s : State) (data : List Byte), s.Inv → s.fault = 0x00#8 → data.length ≤ 255 →
    ¬ enqCollides data s →
    ∃ t rem, exec (.enq data) s = .next t ∧ t.responses = s.responses ++ [[rem]] ∧
      zext rem = data.length - min data.length (s.cap - zext s.pend) ∧
      zext t.pend = zext s.pend + min data.length (s.cap - zext s.pend) ∧ zext t.pend ≤ s.cap

/-- 44_readout_status.md R66: the encoding; in Complete, the oldest unread bytes, at most `max_len`, with `RIDX` the only
register written; outside Complete, `[00]` and no change. -/
def Obligations.ReadReturnsTheOldestUnread : Prop :=
  (∀ (m : Byte) (rest : List Byte), decode (0x05#8 :: m :: rest) = .taken (.read m) rest) ∧
  ∀ (s : State) (m : Byte), s.Inv → s.fault = 0x00#8 →
    if s.state = 0x03#8 then
      ∃ out : List Byte, out.length = min (zext m) s.unreadCount ∧ out.map some = s.unreadCells.take (zext m) ∧
        exec (.read m) s = .next { s with
          ridx := BitVec.ofNat 8 ((zext s.ridx + out.length) % s.cap),
          responses := s.responses ++ [BitVec.ofNat 8 out.length :: out] }
    else exec (.read m) s = .next { s with responses := s.responses ++ [[0x00#8]] }

/-! ## The completion handler -/

/-- 43_completion.md R63: the received byte stored at the old `WIDX`, `WIDX` and `PEND` moved on, the chain continued or
finished, with the frame; the spurious completion when nothing is pending (60_exceptions.md R72); and that only `INIT`
while `BUSY = 1` leaves a transfer in flight with nothing pending (70_reset_and_hazards.md R93). -/
def Obligations.DoneStoresAndContinues : Prop :=
  (∀ (s : State) (rx : Byte), s.Inv → s.fault = 0x00#8 → s.busy = true →
    (s.pend = 0#8 → exec (.done rx) s = .next { s with fault := 0x02#8, faultInfo := rx.setWidth 16 }) ∧
    (s.pend ≠ 0#8 → ∃ t, exec (.done rx) s = .next t ∧
      t.widx = BitVec.ofNat 8 ((zext s.widx + 1) % s.cap) ∧ zext t.pend = zext s.pend - 1 ∧
      t.cell (zext s.widx) = some rx ∧ (∀ a, a ≠ zext s.widx → t.cell a = s.cell a) ∧
      (1 < zext s.pend → t.busy = true ∧ t.state = s.state ∧
        ∃ b, s.cell ((zext s.widx + 1) % s.cap) = some b ∧ t.txlog = s.txlog ++ [b]) ∧
      (zext s.pend = 1 → t.busy = false ∧ t.state = 0x03#8 ∧ t.txlog = s.txlog) ∧
      t.ridx = s.ridx ∧ t.cfg = s.cfg ∧ t.fault = s.fault ∧ t.faultInfo = s.faultInfo ∧
      t.responses = s.responses ∧ t.cmdIn = s.cmdIn ∧ t.sched = s.sched)) ∧
  ∀ (i : Instr) (s t : State), exec i s = .next t → t.busy = true → t.pend = 0#8 →
    s.busy = true ∧ (s.pend = 0#8 ∨ i = .init)

/-- 43_completion.md R64: "`DONE(rx)` is enabled exactly when `BUSY = 1` and `FAULT = 0x00`", for every `rx`. -/
def Obligations.DoneIsEnabledExactlyWhenBusy : Prop :=
  ∀ (s : State) (rx : Byte), s.Inv →
    ((∃ t, exec (.done rx) s = .next t) ↔ s.busy = true ∧ s.fault = 0x00#8)

/-! ## Frames and whole-machine rules -/

/-- The frame of every instruction that stores to no cell (the "Writes" lines of R55, R56, R57, R58, R66, R67, R71, R83): all
but `ENQ` and `DONE`. -/
def Obligations.NonStoringInstructionsKeepTheBuffer : Prop :=
  ∀ (i : Instr) (s t : State), s.Inv → (∀ data, i ≠ .enq data) → (∀ rx, i ≠ .done rx) → exec i s = .next t →
    (∀ a, t.cell a = s.cell a) ∧ t.busy = s.busy ∧ t.txlog = s.txlog ∧ t.cfg = s.cfg ∧ t.cmdIn = s.cmdIn ∧
    t.sched = s.sched ∧
    (i ≠ .init → t.widx = s.widx ∧ t.pend = s.pend) ∧
    (i ≠ .init → (∀ m, i ≠ .read m) → t.ridx = s.ridx) ∧
    ((∃ cw, i = .illegal cw) ∨ (t.fault = s.fault ∧ t.faultInfo = s.faultInfo)) ∧
    ((∃ m, i = .read m) ∨ i = .isc ∨ (∃ cw, i = .illegal cw) → t.state = s.state)

/-- 40_state_machine.md R54: the table, row by row and cell by cell, for a step that does not stop the block; and that a step
that runs none of its columns leaves `STATE`. -/
def Obligations.StateChangesByTheTable : Prop :=
  (∀ s t : State, step s = .next t → nextInstr s = none → t.state = s.state) ∧
  ∀ (i : Instr) (s t : State), exec i s = .next t → t.fault = 0x00#8 →
    match i with
    | .init => t.state = 0x00#8 ∧ t.responses = s.responses ++ [[]]
    | .attach =>
      if s.state = 0x00#8 then t.state = 0x01#8 ∧ t.responses = s.responses ++ [[0x01#8]]
      else t.state = s.state ∧ t.responses = s.responses ++ [[0x00#8]]
    | .release =>
      if s.state = 0x03#8 ∧ s.pend = 0#8 then t.state = 0x00#8 ∧ t.responses = s.responses ++ [[0x01#8]]
      else t.state = s.state ∧ t.responses = s.responses ++ [[0x00#8]]
    | .enq _ =>
      t.state = (if (s.state = 0x01#8 ∨ s.state = 0x03#8) ∧ 0 < zext t.pend then 0x02#8 else s.state) ∧
      ∃ rem, t.responses = s.responses ++ [[rem]]
    | .read _ =>
      t.state = s.state ∧
      if s.state = 0x03#8 then ∃ out : List Byte, t.responses = s.responses ++ [BitVec.ofNat 8 out.length :: out]
      else t.responses = s.responses ++ [[0x00#8]]
    | .isc => t.state = s.state ∧ t.responses = s.responses ++ [[if s.state = 0x03#8 then 0x01#8 else 0x00#8]]
    | .poll =>
      t.state = (if s.state = 0x02#8 ∧ s.pend = 0#8 then 0x03#8 else if 0x04#8 ≤ s.state then 0x00#8 else s.state) ∧
      t.responses = s.responses ++ [[]]
    | .illegal _ => False
    | .done _ => t.state = (if t.pend = 0#8 then 0x03#8 else s.state) ∧ t.responses = s.responses
    | .corrupt v => t.state = v ∧ t.responses = s.responses

/-- 10_state.md R14, R15, R16 and 43_completion.md R65: who moves the read cursor, who moves the write index, who lowers and
who raises the pending count. -/
def Obligations.IndexWritersAreThoseListed : Prop :=
  ∀ (i : Instr) (s t : State), exec i s = .next t →
    (t.ridx ≠ s.ridx → i = .init ∨ (∃ data, i = .enq data) ∨ ∃ m, i = .read m) ∧
    (t.widx ≠ s.widx → i = .init ∨ ∃ rx, i = .done rx) ∧
    (zext t.pend < zext s.pend → i = .init ∨ ∃ rx, i = .done rx) ∧
    (zext s.pend < zext t.pend → ∃ data, i = .enq data)

/-- 10_state.md R19 and 20_memory.md R33: `TXLOG` only grows, by the byte at `WIDX`, by a step of `ENQ` or `DONE` that leaves
a transfer in flight. -/
def Obligations.TxlogGrowsByTheOldestUnsentByte : Prop :=
  ∀ (i : Instr) (s t : State), exec i s = .next t →
    t.txlog = s.txlog ∨
    (((∃ data, i = .enq data) ∨ ∃ rx, i = .done rx) ∧ t.busy = true ∧
      ∃ b, t.cell (zext t.widx) = some b ∧ t.txlog = s.txlog ++ [b])

/-- 10_state.md R19 ("no rule reads it") and R22 ("No response is stored in the block"): what an instruction does depends on
nothing but the components that rules read. With other bytes in the log, other responses before, other bytes waiting and
other turns to come (the model's own fields, logs 2, 4, 5), it does the same. -/
def Obligations.InstructionsReadNeitherLogNorPorts : Prop :=
  ∀ (i : Instr) (s : State) (log port : List Byte) (rs : List (List Byte)) (ts : List Turn),
    exec i { s with txlog := log, responses := rs, cmdIn := port, sched := ts } =
      match exec i s with
      | .next t => .next { t with
          txlog := log ++ t.txlog.drop s.txlog.length,
          responses := rs ++ t.responses.drop s.responses.length,
          cmdIn := port,
          sched := ts }
      | .fault f => .fault f
      | .refused r => .refused r

/-- 00_scope.md R4: "The capacity is fixed for the life of the block". The field is the model's (log 1). -/
def Obligations.ParametersNeverChange : Prop :=
  ∀ s t : State, step s = .next t → t.cfg = s.cfg

/-- 60_exceptions.md R73: a step that stops the block changes `FAULT` and `FAULT_INFO` alone, and after it there is no step of
any kind: none of a command, none of an event, none of the schedule. -/
def Obligations.StoppingStepDiscardsItsEffects : Prop :=
  (∀ (i : Instr) (s t : State), s.fault = 0x00#8 → exec i s = .next t → t.fault ≠ 0x00#8 →
    t = { s with fault := t.fault, faultInfo := t.faultInfo }) ∧
  ∀ s : State, s.fault ≠ 0x00#8 → (∀ t, step s ≠ .next t) ∧ ∀ i t, exec i s ≠ .next t

/-- The model's choice of words for "no step" (logs 7, 8): a stopped block answers the fault `stopped` with its code, and an
event that is not enabled is refused under its name. That there is no step: 60_exceptions.md R73, 43_completion.md R64,
40_state_machine.md R56. -/
def Obligations.NoStepIsAnsweredByName : Prop :=
  (∀ s : State, s.fault ≠ 0x00#8 → step s = .fault (.stopped s.fault) ∧ ∀ i, exec i s = .fault (.stopped s.fault)) ∧
  ∀ s : State, s.fault = 0x00#8 →
    (s.busy = false → ∀ rx, exec (.done rx) s = .refused (.notEnabled "DONE")) ∧
    (s.cfg.allowCorruption = false → ∀ v, exec (.corrupt v) s = .refused (.notEnabled "CORRUPT"))

/-- 60_exceptions.md R70 to R75 and R77: which instruction records which code, with which info, and when. `UNWRITTEN_READ` is
never recorded from a state that meets the invariant. -/
def Obligations.EachCodeHasItsInstruction : Prop :=
  ∀ (i : Instr) (s t : State), s.Inv → s.fault = 0x00#8 → exec i s = .next t → t.fault ≠ 0x00#8 →
    (∃ cw, i = .illegal cw ∧ t.fault = 0x01#8 ∧ t.faultInfo = cw) ∨
    (∃ rx, i = .done rx ∧ t.fault = 0x02#8 ∧ t.faultInfo = rx.setWidth 16 ∧ s.pend = 0#8) ∨
    (∃ data b, i = .enq data ∧ t.fault = 0x03#8 ∧ t.faultInfo = BitVec.setWidth 16 b ∧ s.busy = true ∧
      (s.pendingCells ++ data.map some).head? = some (some b))

/-- 41_attach_release.md R57 ("with no `RELEASE` (or recovery to Idle) between"), 70_reset_and_hazards.md R86 and the table
R54: the only ways back to Idle. -/
def Obligations.OnlyTheListedStepsReachIdle : Prop :=
  ∀ (i : Instr) (s t : State), exec i s = .next t → s.state ≠ 0x00#8 → t.state = 0x00#8 →
    returnsToIdle i s

/-! ## Reset, the invariant and clean runs -/

/-- 10_state.md R26: both columns of the table, power-on and after `INIT`. (The parameters and the ports are not in the table;
nothing is said of them here.) -/
def Obligations.ResetHoldsThePowerOnValues : Prop :=
  (State.reset.state = 0x00#8 ∧ State.reset.ridx = 0#8 ∧ State.reset.widx = 0#8 ∧ State.reset.pend = 0#8 ∧
    (∀ i, State.reset.cell i = none) ∧ State.reset.busy = false ∧ State.reset.fault = 0x00#8 ∧
    State.reset.faultInfo = 0#16 ∧ State.reset.txlog = []) ∧
  ∀ s : State, s.fault = 0x00#8 → ∃ t, exec .init s = .next t ∧
    t.state = 0x00#8 ∧ t.ridx = 0#8 ∧ t.widx = 0#8 ∧ t.pend = 0#8 ∧
    (∀ i, t.cell i = s.cell i) ∧ t.busy = s.busy ∧ t.fault = s.fault ∧ t.faultInfo = s.faultInfo ∧ t.txlog = s.txlog

/-- The power-on state meets the invariant and is clean. -/
def Obligations.ResetMeetsTheInvariant : Prop :=
  State.reset.Inv ∧ State.reset.Clean

/-- 10_state.md R23 (1, 2), R25 and R70: the indices stay in the ring, `PEND <= CAP`, the buffer keeps its canonical form and
lists only cells that exist, every byte of the two regions has been written, `FAULT` holds a code that some run
reaches, and the two regions do not overlap, spelled out cell by cell. From every state that meets it, every step of
every agent keeps it. -/
def Obligations.EveryStepKeepsTheInvariant : Prop :=
  (∀ (s : State) (j k : Nat), s.Inv → j < s.unreadCount → k < zext s.pend →
    (zext s.ridx + j) % s.cap ≠ (zext s.widx + k) % s.cap) ∧
  ∀ s t : State, s.Inv → step s = .next t → t.Inv

/-- 10_state.md R24: the power-on state is clean; a step that is no `CORRUPT` and no `INIT` taken while `BUSY = 1` keeps a
clean state clean, raises neither `SPURIOUS_COMPLETION` nor `WRITE_COLLISION`, and, being `POLL`, does not change
`STATE`. The invariant, kept as well, is what rules out states that no run reaches. -/
def Obligations.CleanStepsKeepCleanStates : Prop :=
  (State.reset.Inv ∧ State.reset.Clean) ∧
  ∀ s t : State, s.Inv → s.Clean → s.fault = 0x00#8 → cleanStep s = true → step s = .next t →
    t.Inv ∧ t.Clean ∧ t.fault ≠ 0x02#8 ∧ t.fault ≠ 0x03#8 ∧ (nextInstr s = some .poll → t.state = s.state)

/-! ## The two byte streams through one ring -/

/-- 10_state.md R25, 70_reset_and_hazards.md R88, R89 and R90: `ENQ`, when it does not collide, puts what fits behind the
pending bytes, which it leaves as they are, and empties the read window. -/
def Obligations.EnqAppendsBehindThePendingBytes : Prop :=
  ∀ (s : State) (data : List Byte), s.Inv → s.fault = 0x00#8 →
    ¬ enqCollides data s →
    ∃ t, exec (.enq data) s = .next t ∧
      t.pendingCells = s.pendingCells ++ (data.take (queuedCount data s)).map some ∧ t.unreadCells = []

/-- 10_state.md R25 and 70_reset_and_hazards.md R91: a completion takes the oldest byte off the pending ones and puts the
received one behind the unread ones; the byte that fills the ring empties the read window. What it sends next is the
oldest byte still pending. -/
def Obligations.DoneMovesOneByteToTheReadWindow : Prop :=
  ∀ (s : State) (rx : Byte), s.Inv → s.fault = 0x00#8 → s.busy = true → s.pend ≠ 0#8 →
    ∃ t, exec (.done rx) s = .next t ∧
      t.pendingCells = s.pendingCells.tail ∧
      t.unreadCells = (if s.unreadCount + 1 = s.cap then [] else s.unreadCells ++ [some rx]) ∧
      (t.txlog.map some = s.txlog.map some ++ t.pendingCells.take 1)

/-- 44_readout_status.md R68: `READ` in Complete takes the bytes it returns off the front of the read window and leaves the
pending ones. -/
def Obligations.ReadTakesFromTheReadWindow : Prop :=
  ∀ (s : State) (m : Byte), s.Inv → s.fault = 0x00#8 → s.state = 0x03#8 →
    ∃ t out, exec (.read m) s = .next t ∧
      t.responses = s.responses ++ [BitVec.ofNat 8 (min (zext m) s.unreadCount) :: out] ∧
      out.map some ++ t.unreadCells = s.unreadCells ∧ out.length = min (zext m) s.unreadCount ∧
      t.pendingCells = s.pendingCells

/-- 95_test_vectors.md L1-P1 and L1-P4 with the restriction of 90_conflicts.md C1; 10_state.md R25; 70_reset_and_hazards.md R91:
from a transfer in flight with an empty read window, after exactly as many completions as bytes were pending the channel
is Complete with nothing pending and nothing in flight, the pending bytes have been sent in order, and a `READ` then
returns exactly the received bytes in order, unless they are `CAP`, when it returns none. That the next turns are these
completions (the schedule is the model's, log 2) is a premise; that they come at all is weak fairness (log 15), of which
`FairRunFinishesTheTransfer` speaks. -/
def Obligations.CompletionsFinishTheTransfer : Prop :=
  ∀ (s : State) (rxs : List Byte) (ts : List Turn),
    s.Inv → s.fault = 0x00#8 → s.busy = true → s.ridx = s.widx → rxs ≠ [] → rxs.length = zext s.pend →
    s.sched = rxs.map Turn.peripheral ++ ts →
    ∃ t, run rxs.length s = .next t ∧
      t.state = 0x03#8 ∧ t.pend = 0#8 ∧ t.busy = false ∧ t.fault = 0x00#8 ∧ t.sched = ts ∧
      t.txlog.map some = s.txlog.map some ++ s.pendingCells.tail ∧
      ∃ u, exec (.read 0xFF#8) t = .next u ∧
        u.responses = s.responses ++
          [if rxs.length = s.cap then [0x00#8] else BitVec.ofNat 8 rxs.length :: rxs]

/-! ## The buffer and the ring -/

/-- 20_memory.md R28 and R32: a cell reads as the byte last stored in it, a store leaves every other cell alone and keeps the
canonical form, and an unwritten cell raises `UNWRITTEN_READ` with its index. -/
def Obligations.CellReadsAsTheByteLastStored : Prop :=
  (∀ (s : State) (i : Nat) (v : Byte), i < s.cap →
    ∃ t, memWrite s i v = .ok t ∧ memRead t i = .ok v ∧ (∀ j, j ≠ i → memRead t j = memRead s j) ∧
      (Memory.wf s.buf → Memory.wf t.buf)) ∧
  ∀ (s : State) (i : Nat), i < s.cap → s.cell i = none →
    memRead s i = .error (.raised .unwrittenRead (BitVec.ofNat 16 i))

/-- 20_memory.md R29: every index advance, the tail and the unread count lie in `[0, CAP)` and fit their 8-bit register; the
oldest byte not yet sent is at `WIDX`; and the unread count is the distance from `RIDX` round to `WIDX`. -/
def Obligations.IndexArithmeticStaysInTheRing : Prop :=
  ∀ s : State, s.indexInv →
    (∀ i, nextIndex s.cap i < s.cap ∧ zext (toReg (nextIndex s.cap i)) = (i + 1) % s.cap) ∧
    (s.tailIndex < s.cap ∧ zext (toReg s.tailIndex) = (zext s.widx + zext s.pend) % s.cap) ∧
    (s.unreadCount < s.cap ∧ zext (toReg s.unreadCount) = (zext s.widx + s.cap - zext s.ridx) % s.cap) ∧
    (0 < zext s.pend → s.pendingCells.head? = some (s.cell (zext s.widx))) ∧
    (zext s.ridx + s.unreadCount) % s.cap = zext s.widx

/-! ## Hazards -/

/-- 70_reset_and_hazards.md R87: after `RELEASE`, `READ` returns 0 and changes nothing, whatever was left unread. -/
def Obligations.ReadAfterReleaseReturnsNothing : Prop :=
  ∀ (s : State) (m : Byte), s.fault = 0x00#8 → s.state = 0x03#8 → s.pend = 0#8 →
    ∃ t, exec .release s = .next t ∧ t.state = 0x00#8 ∧ t.unreadCells = s.unreadCells ∧
      exec (.read m) t = .next { t with responses := t.responses ++ [[0x00#8]] }

/-- 70_reset_and_hazards.md R92: `POLL` recovers an invalid state to Idle and leaves the transfer running; the completion still
stores its byte and continues the chain, or sets Complete from Idle on the last byte; and a client that attaches in the
meantime and then enqueues collides with the running transfer. -/
def Obligations.RecoveryLeavesTheTransferRunning : Prop :=
  ∀ (s : State) (rx : Byte) (data : List Byte), s.Inv → s.fault = 0x00#8 → 0x04#8 ≤ s.state →
    s.busy = true → s.pend ≠ 0#8 → data.length ≤ 255 →
    ∃ t, exec .poll s = .next t ∧ t = { s with state := 0x00#8, responses := s.responses ++ [[]] } ∧
      (∃ u, exec (.done rx) t = .next u ∧ u.cell (zext s.widx) = some rx ∧ zext u.pend = zext s.pend - 1 ∧
        u.busy = decide (1 < zext s.pend) ∧ u.state = if zext s.pend = 1 then 0x03#8 else 0x00#8) ∧
      (∃ v w, exec .attach t = .next v ∧ v.state = 0x01#8 ∧ exec (.enq data) v = .next w ∧ w.fault = 0x03#8)

/-! ## Progress -/

/-- 43_completion.md R64 (92_eei_decisions.md D8): "a `BUSY = 1` that stays enabled is eventually followed by a `DONE`". In a
fair run every transfer in flight is completed, and `BUSY` stays 1 until it is; a run in which the block stays as it is
with a transfer in flight for ever is not fair. Unbounded runs and their fairness are the model's words for it (log 15). -/
def Obligations.FairRunCompletesEveryTransfer : Prop :=
  (∀ r : Run, r.valid → r.fair → ∀ n, (r.state n).busy = true →
    ∃ m rx, n ≤ m ∧ r.takesDone m rx ∧ ∀ k, n ≤ k → k ≤ m → (r.state k).busy = true) ∧
  ∀ (r : Run) (n : Nat), r.valid → (r.state n).busy = true → (∀ m, n ≤ m → r.state m = r.state n) → ¬ r.fair

/-- 70_reset_and_hazards.md R94: "Progress of a transfer depends on the peripheral's completions", with 43_completion.md R63
and R64. In a fair run (log 15) in which no more bytes are queued, a transfer in flight ends: the channel is Complete with
nothing pending and nothing in flight, whatever else the foreground and the environment do in the meantime. -/
def Obligations.FairRunFinishesTheTransfer : Prop :=
  ∀ (r : Run) (n : Nat), r.valid → r.fair → (r.state n).busy = true →
    (∀ m data, n ≤ m → nextInstr (r.before m) ≠ some (.enq data)) →
    ∃ m, n < m ∧ (r.state m).state = 0x03#8 ∧ (r.state m).pend = 0#8 ∧ (r.state m).busy = false ∧
      (r.state m).fault = 0x00#8

/-- 43_completion.md R64: `rx` is "any of the 256 byte values, chosen independently at each `DONE`", and the fairness it
assumes shuts no running block out: whatever bytes come in, a fair run (log 15) goes on from every state that meets the
invariant, has not stopped and has no transfer in flight with nothing pending (whose completion stops the block, R72). -/
def Obligations.FairRunGoesOnFromEveryState : Prop :=
  ∀ (s : State) (rxs : Nat → Byte), s.Inv → s.fault = 0x00#8 → s.sched = [] → (s.busy = true → s.pend ≠ 0#8) →
    ∃ r : Run, r.valid ∧ r.fair ∧ r.state 0 = s ∧ ∀ m rx, r.takesDone m rx → rx = rxs m
end

