-- ==== Sys2Proof/Laws/State.lean ====
section
/-! SUPPORT. One lemma per field per update: what each update of a state does to each field. -/

namespace Sys2Proof.Machine

variable (s : State)

@[simp] theorem State.setState_cfg (v : Byte) : (s.setState v).cfg = s.cfg := rfl
@[simp] theorem State.setState_state (v : Byte) : (s.setState v).state = v := rfl
@[simp] theorem State.setState_buf (v : Byte) : (s.setState v).buf = s.buf := rfl
@[simp] theorem State.setState_ridx (v : Byte) : (s.setState v).ridx = s.ridx := rfl
@[simp] theorem State.setState_widx (v : Byte) : (s.setState v).widx = s.widx := rfl
@[simp] theorem State.setState_pend (v : Byte) : (s.setState v).pend = s.pend := rfl
@[simp] theorem State.setState_busy (v : Byte) : (s.setState v).busy = s.busy := rfl
@[simp] theorem State.setState_fault (v : Byte) : (s.setState v).fault = s.fault := rfl
@[simp] theorem State.setState_faultInfo (v : Byte) : (s.setState v).faultInfo = s.faultInfo := rfl
@[simp] theorem State.setState_txlog (v : Byte) : (s.setState v).txlog = s.txlog := rfl
@[simp] theorem State.setState_cmdIn (v : Byte) : (s.setState v).cmdIn = s.cmdIn := rfl
@[simp] theorem State.setState_responses (v : Byte) : (s.setState v).responses = s.responses := rfl
@[simp] theorem State.setState_sched (v : Byte) : (s.setState v).sched = s.sched := rfl
@[simp] theorem State.setState_cap (v : Byte) : (s.setState v).cap = s.cap := rfl
@[simp] theorem State.setState_cell (v : Byte) (i : Nat) : (s.setState v).cell i = s.cell i := rfl

@[simp] theorem State.setBuf_cfg (m : List Host.Cell) : (s.setBuf m).cfg = s.cfg := rfl
@[simp] theorem State.setBuf_state (m : List Host.Cell) : (s.setBuf m).state = s.state := rfl
@[simp] theorem State.setBuf_buf (m : List Host.Cell) : (s.setBuf m).buf = m := rfl
@[simp] theorem State.setBuf_ridx (m : List Host.Cell) : (s.setBuf m).ridx = s.ridx := rfl
@[simp] theorem State.setBuf_widx (m : List Host.Cell) : (s.setBuf m).widx = s.widx := rfl
@[simp] theorem State.setBuf_pend (m : List Host.Cell) : (s.setBuf m).pend = s.pend := rfl
@[simp] theorem State.setBuf_busy (m : List Host.Cell) : (s.setBuf m).busy = s.busy := rfl
@[simp] theorem State.setBuf_fault (m : List Host.Cell) : (s.setBuf m).fault = s.fault := rfl
@[simp] theorem State.setBuf_faultInfo (m : List Host.Cell) : (s.setBuf m).faultInfo = s.faultInfo := rfl
@[simp] theorem State.setBuf_txlog (m : List Host.Cell) : (s.setBuf m).txlog = s.txlog := rfl
@[simp] theorem State.setBuf_cmdIn (m : List Host.Cell) : (s.setBuf m).cmdIn = s.cmdIn := rfl
@[simp] theorem State.setBuf_responses (m : List Host.Cell) : (s.setBuf m).responses = s.responses := rfl
@[simp] theorem State.setBuf_sched (m : List Host.Cell) : (s.setBuf m).sched = s.sched := rfl
@[simp] theorem State.setBuf_cap (m : List Host.Cell) : (s.setBuf m).cap = s.cap := rfl

@[simp] theorem State.setRidx_cfg (v : Byte) : (s.setRidx v).cfg = s.cfg := rfl
@[simp] theorem State.setRidx_state (v : Byte) : (s.setRidx v).state = s.state := rfl
@[simp] theorem State.setRidx_buf (v : Byte) : (s.setRidx v).buf = s.buf := rfl
@[simp] theorem State.setRidx_ridx (v : Byte) : (s.setRidx v).ridx = v := rfl
@[simp] theorem State.setRidx_widx (v : Byte) : (s.setRidx v).widx = s.widx := rfl
@[simp] theorem State.setRidx_pend (v : Byte) : (s.setRidx v).pend = s.pend := rfl
@[simp] theorem State.setRidx_busy (v : Byte) : (s.setRidx v).busy = s.busy := rfl
@[simp] theorem State.setRidx_fault (v : Byte) : (s.setRidx v).fault = s.fault := rfl
@[simp] theorem State.setRidx_faultInfo (v : Byte) : (s.setRidx v).faultInfo = s.faultInfo := rfl
@[simp] theorem State.setRidx_txlog (v : Byte) : (s.setRidx v).txlog = s.txlog := rfl
@[simp] theorem State.setRidx_cmdIn (v : Byte) : (s.setRidx v).cmdIn = s.cmdIn := rfl
@[simp] theorem State.setRidx_responses (v : Byte) : (s.setRidx v).responses = s.responses := rfl
@[simp] theorem State.setRidx_sched (v : Byte) : (s.setRidx v).sched = s.sched := rfl
@[simp] theorem State.setRidx_cap (v : Byte) : (s.setRidx v).cap = s.cap := rfl
@[simp] theorem State.setRidx_cell (v : Byte) (i : Nat) : (s.setRidx v).cell i = s.cell i := rfl

@[simp] theorem State.setWidx_cfg (v : Byte) : (s.setWidx v).cfg = s.cfg := rfl
@[simp] theorem State.setWidx_state (v : Byte) : (s.setWidx v).state = s.state := rfl
@[simp] theorem State.setWidx_buf (v : Byte) : (s.setWidx v).buf = s.buf := rfl
@[simp] theorem State.setWidx_ridx (v : Byte) : (s.setWidx v).ridx = s.ridx := rfl
@[simp] theorem State.setWidx_widx (v : Byte) : (s.setWidx v).widx = v := rfl
@[simp] theorem State.setWidx_pend (v : Byte) : (s.setWidx v).pend = s.pend := rfl
@[simp] theorem State.setWidx_busy (v : Byte) : (s.setWidx v).busy = s.busy := rfl
@[simp] theorem State.setWidx_fault (v : Byte) : (s.setWidx v).fault = s.fault := rfl
@[simp] theorem State.setWidx_faultInfo (v : Byte) : (s.setWidx v).faultInfo = s.faultInfo := rfl
@[simp] theorem State.setWidx_txlog (v : Byte) : (s.setWidx v).txlog = s.txlog := rfl
@[simp] theorem State.setWidx_cmdIn (v : Byte) : (s.setWidx v).cmdIn = s.cmdIn := rfl
@[simp] theorem State.setWidx_responses (v : Byte) : (s.setWidx v).responses = s.responses := rfl
@[simp] theorem State.setWidx_sched (v : Byte) : (s.setWidx v).sched = s.sched := rfl
@[simp] theorem State.setWidx_cap (v : Byte) : (s.setWidx v).cap = s.cap := rfl
@[simp] theorem State.setWidx_cell (v : Byte) (i : Nat) : (s.setWidx v).cell i = s.cell i := rfl

@[simp] theorem State.setPend_cfg (v : Byte) : (s.setPend v).cfg = s.cfg := rfl
@[simp] theorem State.setPend_state (v : Byte) : (s.setPend v).state = s.state := rfl
@[simp] theorem State.setPend_buf (v : Byte) : (s.setPend v).buf = s.buf := rfl
@[simp] theorem State.setPend_ridx (v : Byte) : (s.setPend v).ridx = s.ridx := rfl
@[simp] theorem State.setPend_widx (v : Byte) : (s.setPend v).widx = s.widx := rfl
@[simp] theorem State.setPend_pend (v : Byte) : (s.setPend v).pend = v := rfl
@[simp] theorem State.setPend_busy (v : Byte) : (s.setPend v).busy = s.busy := rfl
@[simp] theorem State.setPend_fault (v : Byte) : (s.setPend v).fault = s.fault := rfl
@[simp] theorem State.setPend_faultInfo (v : Byte) : (s.setPend v).faultInfo = s.faultInfo := rfl
@[simp] theorem State.setPend_txlog (v : Byte) : (s.setPend v).txlog = s.txlog := rfl
@[simp] theorem State.setPend_cmdIn (v : Byte) : (s.setPend v).cmdIn = s.cmdIn := rfl
@[simp] theorem State.setPend_responses (v : Byte) : (s.setPend v).responses = s.responses := rfl
@[simp] theorem State.setPend_sched (v : Byte) : (s.setPend v).sched = s.sched := rfl
@[simp] theorem State.setPend_cap (v : Byte) : (s.setPend v).cap = s.cap := rfl
@[simp] theorem State.setPend_cell (v : Byte) (i : Nat) : (s.setPend v).cell i = s.cell i := rfl

@[simp] theorem State.setBusy_cfg (v : Bool) : (s.setBusy v).cfg = s.cfg := rfl
@[simp] theorem State.setBusy_state (v : Bool) : (s.setBusy v).state = s.state := rfl
@[simp] theorem State.setBusy_buf (v : Bool) : (s.setBusy v).buf = s.buf := rfl
@[simp] theorem State.setBusy_ridx (v : Bool) : (s.setBusy v).ridx = s.ridx := rfl
@[simp] theorem State.setBusy_widx (v : Bool) : (s.setBusy v).widx = s.widx := rfl
@[simp] theorem State.setBusy_pend (v : Bool) : (s.setBusy v).pend = s.pend := rfl
@[simp] theorem State.setBusy_busy (v : Bool) : (s.setBusy v).busy = v := rfl
@[simp] theorem State.setBusy_fault (v : Bool) : (s.setBusy v).fault = s.fault := rfl
@[simp] theorem State.setBusy_faultInfo (v : Bool) : (s.setBusy v).faultInfo = s.faultInfo := rfl
@[simp] theorem State.setBusy_txlog (v : Bool) : (s.setBusy v).txlog = s.txlog := rfl
@[simp] theorem State.setBusy_cmdIn (v : Bool) : (s.setBusy v).cmdIn = s.cmdIn := rfl
@[simp] theorem State.setBusy_responses (v : Bool) : (s.setBusy v).responses = s.responses := rfl
@[simp] theorem State.setBusy_sched (v : Bool) : (s.setBusy v).sched = s.sched := rfl
@[simp] theorem State.setBusy_cap (v : Bool) : (s.setBusy v).cap = s.cap := rfl
@[simp] theorem State.setBusy_cell (v : Bool) (i : Nat) : (s.setBusy v).cell i = s.cell i := rfl

@[simp] theorem State.logTx_cfg (b : Byte) : (s.logTx b).cfg = s.cfg := rfl
@[simp] theorem State.logTx_state (b : Byte) : (s.logTx b).state = s.state := rfl
@[simp] theorem State.logTx_buf (b : Byte) : (s.logTx b).buf = s.buf := rfl
@[simp] theorem State.logTx_ridx (b : Byte) : (s.logTx b).ridx = s.ridx := rfl
@[simp] theorem State.logTx_widx (b : Byte) : (s.logTx b).widx = s.widx := rfl
@[simp] theorem State.logTx_pend (b : Byte) : (s.logTx b).pend = s.pend := rfl
@[simp] theorem State.logTx_busy (b : Byte) : (s.logTx b).busy = s.busy := rfl
@[simp] theorem State.logTx_fault (b : Byte) : (s.logTx b).fault = s.fault := rfl
@[simp] theorem State.logTx_faultInfo (b : Byte) : (s.logTx b).faultInfo = s.faultInfo := rfl
@[simp] theorem State.logTx_txlog (b : Byte) : (s.logTx b).txlog = s.txlog ++ [b] := rfl
@[simp] theorem State.logTx_cmdIn (b : Byte) : (s.logTx b).cmdIn = s.cmdIn := rfl
@[simp] theorem State.logTx_responses (b : Byte) : (s.logTx b).responses = s.responses := rfl
@[simp] theorem State.logTx_sched (b : Byte) : (s.logTx b).sched = s.sched := rfl
@[simp] theorem State.logTx_cap (b : Byte) : (s.logTx b).cap = s.cap := rfl
@[simp] theorem State.logTx_cell (b : Byte) (i : Nat) : (s.logTx b).cell i = s.cell i := rfl

@[simp] theorem State.respond_cfg (r : List Byte) : (s.respond r).cfg = s.cfg := rfl
@[simp] theorem State.respond_state (r : List Byte) : (s.respond r).state = s.state := rfl
@[simp] theorem State.respond_buf (r : List Byte) : (s.respond r).buf = s.buf := rfl
@[simp] theorem State.respond_ridx (r : List Byte) : (s.respond r).ridx = s.ridx := rfl
@[simp] theorem State.respond_widx (r : List Byte) : (s.respond r).widx = s.widx := rfl
@[simp] theorem State.respond_pend (r : List Byte) : (s.respond r).pend = s.pend := rfl
@[simp] theorem State.respond_busy (r : List Byte) : (s.respond r).busy = s.busy := rfl
@[simp] theorem State.respond_fault (r : List Byte) : (s.respond r).fault = s.fault := rfl
@[simp] theorem State.respond_faultInfo (r : List Byte) : (s.respond r).faultInfo = s.faultInfo := rfl
@[simp] theorem State.respond_txlog (r : List Byte) : (s.respond r).txlog = s.txlog := rfl
@[simp] theorem State.respond_cmdIn (r : List Byte) : (s.respond r).cmdIn = s.cmdIn := rfl
@[simp] theorem State.respond_responses (r : List Byte) : (s.respond r).responses = s.responses ++ [r] := rfl
@[simp] theorem State.respond_sched (r : List Byte) : (s.respond r).sched = s.sched := rfl
@[simp] theorem State.respond_cap (r : List Byte) : (s.respond r).cap = s.cap := rfl
@[simp] theorem State.respond_cell (r : List Byte) (i : Nat) : (s.respond r).cell i = s.cell i := rfl

@[simp] theorem State.setCmdIn_cfg (bs : List Byte) : (s.setCmdIn bs).cfg = s.cfg := rfl
@[simp] theorem State.setCmdIn_state (bs : List Byte) : (s.setCmdIn bs).state = s.state := rfl
@[simp] theorem State.setCmdIn_buf (bs : List Byte) : (s.setCmdIn bs).buf = s.buf := rfl
@[simp] theorem State.setCmdIn_ridx (bs : List Byte) : (s.setCmdIn bs).ridx = s.ridx := rfl
@[simp] theorem State.setCmdIn_widx (bs : List Byte) : (s.setCmdIn bs).widx = s.widx := rfl
@[simp] theorem State.setCmdIn_pend (bs : List Byte) : (s.setCmdIn bs).pend = s.pend := rfl
@[simp] theorem State.setCmdIn_busy (bs : List Byte) : (s.setCmdIn bs).busy = s.busy := rfl
@[simp] theorem State.setCmdIn_fault (bs : List Byte) : (s.setCmdIn bs).fault = s.fault := rfl
@[simp] theorem State.setCmdIn_faultInfo (bs : List Byte) : (s.setCmdIn bs).faultInfo = s.faultInfo := rfl
@[simp] theorem State.setCmdIn_txlog (bs : List Byte) : (s.setCmdIn bs).txlog = s.txlog := rfl
@[simp] theorem State.setCmdIn_cmdIn (bs : List Byte) : (s.setCmdIn bs).cmdIn = bs := rfl
@[simp] theorem State.setCmdIn_responses (bs : List Byte) : (s.setCmdIn bs).responses = s.responses := rfl
@[simp] theorem State.setCmdIn_sched (bs : List Byte) : (s.setCmdIn bs).sched = s.sched := rfl
@[simp] theorem State.setCmdIn_cap (bs : List Byte) : (s.setCmdIn bs).cap = s.cap := rfl
@[simp] theorem State.setCmdIn_cell (bs : List Byte) (i : Nat) : (s.setCmdIn bs).cell i = s.cell i := rfl

@[simp] theorem State.setSched_cfg (ts : List Turn) : (s.setSched ts).cfg = s.cfg := rfl
@[simp] theorem State.setSched_state (ts : List Turn) : (s.setSched ts).state = s.state := rfl
@[simp] theorem State.setSched_buf (ts : List Turn) : (s.setSched ts).buf = s.buf := rfl
@[simp] theorem State.setSched_ridx (ts : List Turn) : (s.setSched ts).ridx = s.ridx := rfl
@[simp] theorem State.setSched_widx (ts : List Turn) : (s.setSched ts).widx = s.widx := rfl
@[simp] theorem State.setSched_pend (ts : List Turn) : (s.setSched ts).pend = s.pend := rfl
@[simp] theorem State.setSched_busy (ts : List Turn) : (s.setSched ts).busy = s.busy := rfl
@[simp] theorem State.setSched_fault (ts : List Turn) : (s.setSched ts).fault = s.fault := rfl
@[simp] theorem State.setSched_faultInfo (ts : List Turn) : (s.setSched ts).faultInfo = s.faultInfo := rfl
@[simp] theorem State.setSched_txlog (ts : List Turn) : (s.setSched ts).txlog = s.txlog := rfl
@[simp] theorem State.setSched_cmdIn (ts : List Turn) : (s.setSched ts).cmdIn = s.cmdIn := rfl
@[simp] theorem State.setSched_responses (ts : List Turn) : (s.setSched ts).responses = s.responses := rfl
@[simp] theorem State.setSched_sched (ts : List Turn) : (s.setSched ts).sched = ts := rfl
@[simp] theorem State.setSched_cap (ts : List Turn) : (s.setSched ts).cap = s.cap := rfl
@[simp] theorem State.setSched_cell (ts : List Turn) (i : Nat) : (s.setSched ts).cell i = s.cell i := rfl

@[simp] theorem State.setFault_cfg (c : Cause) (info : Word) : (s.setFault c info).cfg = s.cfg := rfl
@[simp] theorem State.setFault_state (c : Cause) (info : Word) : (s.setFault c info).state = s.state := rfl
@[simp] theorem State.setFault_buf (c : Cause) (info : Word) : (s.setFault c info).buf = s.buf := rfl
@[simp] theorem State.setFault_ridx (c : Cause) (info : Word) : (s.setFault c info).ridx = s.ridx := rfl
@[simp] theorem State.setFault_widx (c : Cause) (info : Word) : (s.setFault c info).widx = s.widx := rfl
@[simp] theorem State.setFault_pend (c : Cause) (info : Word) : (s.setFault c info).pend = s.pend := rfl
@[simp] theorem State.setFault_busy (c : Cause) (info : Word) : (s.setFault c info).busy = s.busy := rfl
@[simp] theorem State.setFault_fault (c : Cause) (info : Word) : (s.setFault c info).fault = c.code := rfl
@[simp] theorem State.setFault_faultInfo (c : Cause) (info : Word) : (s.setFault c info).faultInfo = info := rfl
@[simp] theorem State.setFault_txlog (c : Cause) (info : Word) : (s.setFault c info).txlog = s.txlog := rfl
@[simp] theorem State.setFault_cmdIn (c : Cause) (info : Word) : (s.setFault c info).cmdIn = s.cmdIn := rfl
@[simp] theorem State.setFault_responses (c : Cause) (info : Word) : (s.setFault c info).responses = s.responses := rfl
@[simp] theorem State.setFault_sched (c : Cause) (info : Word) : (s.setFault c info).sched = s.sched := rfl
@[simp] theorem State.setFault_cap (c : Cause) (info : Word) : (s.setFault c info).cap = s.cap := rfl
@[simp] theorem State.setFault_cell (c : Cause) (info : Word) (i : Nat) : (s.setFault c info).cell i = s.cell i := rfl

@[simp] theorem State.feed_cfg (ts : List Turn) : (s.feed ts).cfg = s.cfg := rfl
@[simp] theorem State.feed_state (ts : List Turn) : (s.feed ts).state = s.state := rfl
@[simp] theorem State.feed_buf (ts : List Turn) : (s.feed ts).buf = s.buf := rfl
@[simp] theorem State.feed_ridx (ts : List Turn) : (s.feed ts).ridx = s.ridx := rfl
@[simp] theorem State.feed_widx (ts : List Turn) : (s.feed ts).widx = s.widx := rfl
@[simp] theorem State.feed_pend (ts : List Turn) : (s.feed ts).pend = s.pend := rfl
@[simp] theorem State.feed_busy (ts : List Turn) : (s.feed ts).busy = s.busy := rfl
@[simp] theorem State.feed_fault (ts : List Turn) : (s.feed ts).fault = s.fault := rfl
@[simp] theorem State.feed_faultInfo (ts : List Turn) : (s.feed ts).faultInfo = s.faultInfo := rfl
@[simp] theorem State.feed_txlog (ts : List Turn) : (s.feed ts).txlog = s.txlog := rfl
@[simp] theorem State.feed_cmdIn (ts : List Turn) : (s.feed ts).cmdIn = s.cmdIn := rfl
@[simp] theorem State.feed_responses (ts : List Turn) : (s.feed ts).responses = s.responses := rfl
@[simp] theorem State.feed_sched (ts : List Turn) : (s.feed ts).sched = s.sched ++ ts := rfl
@[simp] theorem State.feed_cap (ts : List Turn) : (s.feed ts).cap = s.cap := rfl
@[simp] theorem State.feed_cell (ts : List Turn) (i : Nat) : (s.feed ts).cell i = s.cell i := rfl

@[simp] theorem State.afterTaking_cfg (ts : List Turn) (rest : List Byte) : (s.afterTaking ts rest).cfg = s.cfg := rfl
@[simp] theorem State.afterTaking_state (ts : List Turn) (rest : List Byte) : (s.afterTaking ts rest).state = s.state := rfl
@[simp] theorem State.afterTaking_buf (ts : List Turn) (rest : List Byte) : (s.afterTaking ts rest).buf = s.buf := rfl
@[simp] theorem State.afterTaking_ridx (ts : List Turn) (rest : List Byte) : (s.afterTaking ts rest).ridx = s.ridx := rfl
@[simp] theorem State.afterTaking_widx (ts : List Turn) (rest : List Byte) : (s.afterTaking ts rest).widx = s.widx := rfl
@[simp] theorem State.afterTaking_pend (ts : List Turn) (rest : List Byte) : (s.afterTaking ts rest).pend = s.pend := rfl
@[simp] theorem State.afterTaking_busy (ts : List Turn) (rest : List Byte) : (s.afterTaking ts rest).busy = s.busy := rfl
@[simp] theorem State.afterTaking_fault (ts : List Turn) (rest : List Byte) : (s.afterTaking ts rest).fault = s.fault := rfl
@[simp] theorem State.afterTaking_faultInfo (ts : List Turn) (rest : List Byte) : (s.afterTaking ts rest).faultInfo = s.faultInfo := rfl
@[simp] theorem State.afterTaking_txlog (ts : List Turn) (rest : List Byte) : (s.afterTaking ts rest).txlog = s.txlog := rfl
@[simp] theorem State.afterTaking_cmdIn (ts : List Turn) (rest : List Byte) : (s.afterTaking ts rest).cmdIn = rest := rfl
@[simp] theorem State.afterTaking_responses (ts : List Turn) (rest : List Byte) : (s.afterTaking ts rest).responses = s.responses := rfl
@[simp] theorem State.afterTaking_sched (ts : List Turn) (rest : List Byte) : (s.afterTaking ts rest).sched = ts := rfl
@[simp] theorem State.afterTaking_cell (ts : List Turn) (rest : List Byte) (i : Nat) : (s.afterTaking ts rest).cell i = s.cell i := rfl

end Sys2Proof.Machine
end

