-- ==== Sys2Proof/Laws/Ops.lean ====
section
/-! SUPPORT. For each shared operation, once, all that it can do. -/

namespace Sys2Proof.Machine

/-! ## Operands -/

theorem State.cap_pos (s : State) : 0 < s.cap := s.cfg.cap.property.1

theorem State.cap_le (s : State) : s.cap ≤ 255 := s.cfg.cap.property.2

@[simp] theorem zext_toReg {n : Nat} (h : n ≤ 255) : zext (toReg n) = n := by
  simp [zext, toReg]; omega

theorem zext_le (b : Byte) : zext b ≤ 255 := by have := b.isLt; simp only [zext]; omega

@[simp] theorem zext_zero : zext 0#8 = 0 := rfl

theorem zext_eq_zero {b : Byte} : zext b = 0 ↔ b = 0#8 := by
  constructor
  · intro h; exact BitVec.eq_of_toNat_eq h
  · rintro rfl; rfl

theorem zext_inj {a b : Byte} : zext a = zext b ↔ a = b := BitVec.toNat_inj

theorem toReg_zext (b : Byte) : toReg (zext b) = b := by simp [toReg, zext]

theorem nextIndex_lt (s : State) (i : Nat) : nextIndex s.cap i < s.cap := Nat.mod_lt _ s.cap_pos

theorem State.tailIndex_lt (s : State) : s.tailIndex < s.cap := Nat.mod_lt _ s.cap_pos

theorem State.unreadCount_lt (s : State) : s.unreadCount < s.cap := Nat.mod_lt _ s.cap_pos

theorem mod_cap_lt (s : State) (n : Nat) : n % s.cap < s.cap := Nat.mod_lt _ s.cap_pos

@[simp] theorem zext_toReg_nextIndex (s : State) (i : Nat) :
    zext (toReg (nextIndex s.cap i)) = nextIndex s.cap i :=
  zext_toReg (by have := nextIndex_lt s i; have := s.cap_le; omega)

/-! ## The buffer and the data register -/

/-- `MemRead` answers exactly the byte last stored in an existing cell. -/
theorem memRead_eq_ok {s : State} {i : Nat} {b : Byte} :
    memRead s i = .ok b ↔ i < s.cap ∧ s.cell i = some b := by
  unfold memRead
  split
  · split <;> simp [*]
  · simp [*]

/-- `MemRead` of an existing, unwritten cell raises `UNWRITTEN_READ`. -/
theorem memRead_unwritten {s : State} {i : Nat} (hi : i < s.cap) (h : s.cell i = none) :
    memRead s i = .error (.raised .unwrittenRead (infoOfIndex i)) := by
  simp [memRead, hi, h]

/-- `MemWrite` stores into an existing cell and changes nothing else. -/
theorem memWrite_eq_ok {s t : State} {i : Nat} {v : Byte} :
    memWrite s i v = .ok t ↔ i < s.cap ∧ t = s.setBuf (Memory.write s.buf i v) := by
  unfold memWrite
  split <;> simp [*, eq_comm]

/-- `DataRegWrite` starts a transfer when none is in flight. -/
theorem dataRegWrite_eq_ok {s t : State} {b : Byte} :
    dataRegWrite s b = .ok t ↔ s.busy = false ∧ t = (s.setBusy true).logTx b := by
  unfold dataRegWrite
  split <;> simp [*, eq_comm]

/-- `DataRegWrite` collides when a transfer is in flight. -/
theorem dataRegWrite_busy {s : State} {b : Byte} (h : s.busy = true) :
    dataRegWrite s b = .error (.raised .writeCollision (infoOfByte b)) := by
  simp [dataRegWrite, h]

/-- Sending the oldest unsent byte: the byte of cell `WIDX`, with no transfer in flight. -/
theorem sendOldest_eq_ok {s t : State} :
    sendOldest s = .ok t ↔ ∃ b, zext s.widx < s.cap ∧ s.cell (zext s.widx) = some b ∧ s.busy = false ∧
      t = (s.setBusy true).logTx b := by
  unfold sendOldest
  split
  · rename_i b hb
    have hb' := memRead_eq_ok.1 hb
    rw [dataRegWrite_eq_ok]
    constructor
    · rintro ⟨h1, h2⟩; exact ⟨b, hb'.1, hb'.2, h1, h2⟩
    · rintro ⟨c, -, hc, h1, h2⟩
      obtain rfl : c = b := by rw [hb'.2] at hc; exact (Option.some.inj hc).symm
      exact ⟨h1, h2⟩
  · rename_i e he
    constructor
    · simp
    · rintro ⟨b, h1, h2, -, -⟩
      rw [memRead_eq_ok.2 ⟨h1, h2⟩] at he
      simp at he

/-! ## Stopping and running -/

@[simp] theorem whileRunning_running {s : State} (h : s.fault = 0x00#8) (o : Host.Outcome State Fault Refusal) :
    whileRunning s o = o := if_pos h

@[simp] theorem whileRunning_stopped {s : State} (h : s.fault ≠ 0x00#8) (o : Host.Outcome State Fault Refusal) :
    whileRunning s o = .fault (.stopped s.fault) := if_neg h

/-- A step answers a next state only in a block that has not stopped. -/
theorem whileRunning_eq_next {s t : State} {o : Host.Outcome State Fault Refusal} :
    whileRunning s o = .next t ↔ s.fault = 0x00#8 ∧ o = .next t := by
  unfold whileRunning
  split <;> simp_all

/-- A step's end answers a next state in two ways: it went through, or it raised and all but the record is as before. -/
theorem finish_eq_next {s t : State} {r : Except Stop State} :
    finish s r = .next t ↔ r = .ok t ∨ ∃ c info, r = .error (.raised c info) ∧ t = s.setFault c info := by
  match r with
  | .ok u => simp [finish]
  | .error (.raised c info) => simp [finish, takeStop, eq_comm]
  | .error (.noCell i) => simp [finish, takeStop]

/-- No code of a cause is 0x00. -/
theorem Cause.code_ne_zero (c : Cause) : c.code ≠ 0x00#8 := by cases c <;> decide

end Sys2Proof.Machine
end

