-- ==== Sys2Proof/Laws/Buffer.lean ====
section
/-! SUPPORT. The two loops over the ring buffer, each with all that it does: `fillBuffer` of `ENQ` and `copyOut` of `READ`. -/

namespace Sys2Proof.Machine

/-- Distinct offsets below `n` from one base name distinct cells of the ring. -/
theorem ring_ne {n a i j : Nat} (hi : i < n) (hj : j < n) (h : i ≠ j) : (a + i) % n ≠ (a + j) % n := fun e => by
  have : i ≡ j [MOD n] := Nat.ModEq.add_left_cancel' a e
  exact h (by rw [Nat.ModEq, Nat.mod_eq_of_lt hi, Nat.mod_eq_of_lt hj] at this; exact this)

/-- The cell that lies `k` places behind the tail. -/
abbrev State.tailCell (s : State) (k : Nat) : Nat := (zext s.widx + (zext s.pend + k)) % s.cap

/-- Step 2 of `ENQ` (42_enqueue.md R60, R62): from a count in range it always succeeds, queues the first
`min(count, CAP - PEND)` bytes behind the pending ones, leaves the rest, and changes only `PEND` and those cells. -/
theorem fillBuffer_spec (data : List Byte) (s : State) (h : zext s.pend ≤ s.cap) :
    ∃ m, fillBuffer data s = .ok ((s.setBuf m).setPend (toReg (zext s.pend + queuedCount data s)),
        data.drop (queuedCount data s)) ∧
      (∀ k, k < queuedCount data s → Memory.read m (s.tailCell k) = data[k]?) ∧
      (∀ i, (∀ k, k < queuedCount data s → i ≠ s.tailCell k) → Memory.read m i = s.cell i) ∧
      (Memory.wf s.buf → Memory.wf m) ∧
      ((∀ c ∈ s.buf, c.1 < s.cap) → ∀ c ∈ m, c.1 < s.cap) := by
  induction data generalizing s with
  | nil => exact ⟨s.buf, by simp [fillBuffer, queuedCount, toReg_zext, State.setBuf, State.setPend],
      by simp [queuedCount], fun _ _ => rfl, id, id⟩
  | cons b bs ih =>
    unfold fillBuffer
    split
    case isFalse hp =>
      have hq : queuedCount (b :: bs) s = 0 := by simp [queuedCount]; omega
      exact ⟨s.buf, by simp [hq, toReg_zext, State.setBuf, State.setPend], by simp [hq], fun _ _ => rfl, id, id⟩
    case isTrue hp =>
      have hw : memWrite s s.tailIndex b = .ok (s.setBuf (Memory.write s.buf s.tailIndex b)) :=
        memWrite_eq_ok.2 ⟨s.tailIndex_lt, rfl⟩
      simp only [hw]
      have hcap := s.cap_le
      have hz : zext (toReg (zext s.pend + 1)) = zext s.pend + 1 := zext_toReg (by omega)
      set u := (s.setBuf (Memory.write s.buf s.tailIndex b)).setPend (toReg (zext s.pend + 1)) with hu
      obtain ⟨m, hm, hin, hout, hwf, hbel⟩ := ih u (by simp [hu, hz]; omega)
      have hq : queuedCount (b :: bs) s = queuedCount bs u + 1 := by simp [queuedCount, hu, hz]; omega
      have hcell : ∀ i, u.cell i = if i = s.tailIndex then some b else s.cell i := fun i => State.cell_setBuf_write s _ i b
      have htail : ∀ k, u.tailCell k = s.tailCell (k + 1) := fun k => by
        rw [State.tailCell, State.tailCell, show u.pend = toReg (zext s.pend + 1) from rfl, hz,
          Nat.add_right_comm (zext s.pend) 1 k]
        rfl
      have h0 : s.tailCell 0 = s.tailIndex := by simp [State.tailCell, State.tailIndex]
      have hqle : queuedCount bs u < s.cap := by simp [queuedCount, hu, hz]; omega
      refine ⟨m, ?_, ?_, ?_, fun hs => hwf (Memory.wf_write _ _ hs),
        fun hs => hbel (Memory.below_write s.tailIndex_lt hs)⟩
      · simp only [State.setBuf_pend]
        rw [← hu, hm, hq, show u.pend = toReg (zext s.pend + 1) from rfl, hz, Nat.add_right_comm, ← Nat.add_assoc]
        rfl
      · intro k hk
        match k with
        | 0 =>
          rw [h0, hout _ fun k hk => ?_, hcell, if_pos rfl]; · rfl
          rw [htail, ← h0]
          have e : ∀ j, s.tailCell j = (zext s.widx + zext s.pend + j) % s.cap := fun j => by
            simp [State.tailCell, Nat.add_assoc]
          rw [e, e]
          exact ring_ne s.cap_pos (by omega) (by omega)
        | k + 1 => rw [← htail, hin k (by omega)]; rfl
      · intro i hi
        rw [hout i fun k hk => by rw [htail]; exact hi _ (by omega), hcell, if_neg]
        rw [← h0]; exact hi 0 (by omega)

/-- The cell that lies `k` places into the read window. -/
abbrev State.readCell (s : State) (k : Nat) : Nat := (zext s.ridx + k) % s.cap

/-- One step of the read cursor, while it has not caught up, shortens the window by one. -/
theorem unreadCount_advance {s : State} (h : s.indexInv) (hne : s.ridx ≠ s.widx) :
    (s.setRidx (toReg (nextIndex s.cap (zext s.ridx)))).unreadCount + 1 = s.unreadCount := by
  have hne' : zext s.ridx ≠ zext s.widx := fun e => hne (zext_inj.1 e)
  obtain ⟨hr, hw, -⟩ := h
  simp only [State.unreadCount, State.setRidx_widx, State.setRidx_ridx, State.setRidx_cap, zext_toReg_nextIndex]
  unfold nextIndex
  generalize zext s.ridx = r at *; generalize zext s.widx = w at *; generalize s.cap = n at *
  by_cases hwrap : r + 1 = n
  · rw [hwrap, Nat.mod_self, Nat.sub_zero, Nat.add_mod_right, Nat.mod_eq_of_lt hw, Nat.mod_eq_of_lt (by omega)]; omega
  · rw [Nat.mod_eq_of_lt (show r + 1 < n by omega)]
    rcases Nat.lt_or_ge r w with hlt | hge
    · rw [show w + n - (r + 1) = (w - r - 1) + n by omega, show w + n - r = (w - r) + n by omega,
        Nat.add_mod_right, Nat.add_mod_right, Nat.mod_eq_of_lt (by omega), Nat.mod_eq_of_lt (by omega)]; omega
    · rw [Nat.mod_eq_of_lt (by omega), Nat.mod_eq_of_lt (by omega)]; omega

/-- The read window is empty exactly when the cursor has caught up. -/
theorem unreadCount_eq_zero {s : State} (h : s.indexInv) : s.unreadCount = 0 ↔ s.ridx = s.widx := by
  constructor
  · intro h0
    by_contra hne
    have := unreadCount_advance h hne
    omega
  · intro e; simp [State.unreadCount, e]

/-- The loop of `READ` (44_readout_status.md R66, R68): where the window's cells are written it always succeeds, answers the
first `min(n, unread)` bytes of the window in order, and changes only `RIDX`, advanced by that many. -/
theorem copyOut_spec (n : Nat) (s : State) (h : s.indexInv)
    (hw : ∀ k < s.unreadCount, (s.cell (s.readCell k)).isSome) :
    ∃ out, copyOut n s = .ok (s.setRidx (toReg (s.readCell (min n s.unreadCount))), out) ∧
      out.map some = s.unreadCells.take n := by
  have hself : toReg (s.readCell 0) = s.ridx := by
    simp [State.readCell, Nat.mod_eq_of_lt h.1, toReg_zext]
  have hzero : s.setRidx (toReg (s.readCell 0)) = s := by rw [hself]; rfl
  induction n generalizing s with
  | zero => exact ⟨[], by rw [Nat.zero_min, hzero]; rfl, by simp⟩
  | succ n ih =>
    unfold copyOut
    by_cases hrw : s.ridx = s.widx
    · have h0 := (unreadCount_eq_zero h).2 hrw
      exact ⟨[], by rw [if_pos hrw, h0, Nat.min_zero, hzero], by simp [State.unreadCells, h0]⟩
    · have hadv := unreadCount_advance h hrw
      set u := s.setRidx (toReg (nextIndex s.cap (zext s.ridx))) with hu
      have hcells : ∀ k, u.readCell k = s.readCell (k + 1) := fun k => by
        simp only [State.readCell, hu, State.setRidx_ridx, State.setRidx_cap, zext_toReg_nextIndex]
        rw [nextIndex, Nat.mod_add_mod]
        congr 1; omega
      obtain ⟨b, hb⟩ := Option.isSome_iff_exists.1 (hw 0 (by omega))
      have h0 : s.readCell 0 = zext s.ridx := by simp [State.readCell, Nat.mod_eq_of_lt h.1]
      rw [h0] at hb
      have huI : u.indexInv := ⟨by simpa [hu] using nextIndex_lt s _, h.2⟩
      obtain ⟨out, ho, hlist⟩ := ih u huI
        (fun k hk => by rw [hcells]; exact hw (k + 1) (by omega))
        (by simp [State.readCell, Nat.mod_eq_of_lt huI.1, toReg_zext])
        (by rw [show toReg (u.readCell 0) = u.ridx by simp [State.readCell, Nat.mod_eq_of_lt huI.1, toReg_zext]]; rfl)
      refine ⟨b :: out, ?_, ?_⟩
      · rw [if_neg hrw, memRead_eq_ok.2 ⟨h.1, hb⟩]
        simp only [ho]
        rw [hcells, ← hadv, Nat.succ_min_succ]
        rfl
      · rw [List.map_cons, hlist, State.unreadCells, State.unreadCells, ← hadv, List.range_succ_eq_map]
        simp only [List.map_cons, List.take_succ_cons, List.map_map]
        rw [show (zext s.ridx + 0) % s.cap = zext s.ridx from h0, hb]
        congr 2
        refine List.map_congr_left fun k _ => ?_
        exact congrArg s.cell (hcells k)

end Sys2Proof.Machine
end

