-- ==== Sys2Proof/Laws/Step.lean ====
section
/-! SUPPORT. All that one step can do, once. -/

namespace Sys2Proof.Machine

/-- Taking an instruction uses up its turn and its bytes, and changes nothing else. -/
theorem State.afterTaking_eq (s : State) (ts : List Turn) (rest : List Byte) :
    s.afterTaking ts rest = { s with sched := ts, cmdIn := rest } := rfl

/-- A step that answers a next state ran in a block that had not stopped, and either found no turn, or ran the instruction
that the next turn picks, or passed that turn over. -/
theorem step_eq_next {s t : State} :
    step s = .next t ↔ s.fault = 0x00#8 ∧
      ((s.sched = [] ∧ t = s) ∨
       (∃ u ts i rest, s.sched = u :: ts ∧ pick u s = some (i, rest) ∧ exec i (s.afterTaking ts rest) = .next t) ∨
       (∃ u ts, s.sched = u :: ts ∧ pick u s = none ∧ t = s.afterTaking ts (cmdInAfterIdle u s))) := by
  unfold step
  by_cases hf : s.fault = 0x00#8
  · rw [if_pos hf, and_iff_right hf]
    match hs : s.sched with
    | [] => simp [eq_comm]
    | u :: ts =>
      match hp : pick u s with
      | none => simp [hp, eq_comm]
      | some (i, rest) => simp [hp]
  · rw [if_neg hf]
    constructor
    · intro h; cases h
    · intro h; exact absurd h.1 hf

/-- A turn picks a command from the port, or an event that is enabled. -/
theorem pick_eq_some {u : Turn} {s : State} {i : Instr} {rest : List Byte} :
    pick u s = some (i, rest) ↔
      (u = .foreground ∧ decode s.cmdIn = .taken i rest) ∨
      (∃ rx, u = .peripheral rx ∧ doneEnabled s = true ∧ i = .done rx ∧ rest = s.cmdIn) ∨
      (∃ v, u = .environment v ∧ corruptEnabled s = true ∧ i = .corrupt v ∧ rest = s.cmdIn) := by
  cases u with
  | foreground => cases h : decode s.cmdIn <;> simp [pick, h]
  | peripheral rx => by_cases h : doneEnabled s = true <;> (simp [pick, h]; try tauto)
  | environment v => by_cases h : corruptEnabled s = true <;> (simp [pick, h]; try tauto)
  | arrive b => simp [pick]

/-- A run goes on from the state that its first step answers. -/
theorem run_succ {s t : State} (n : Nat) (h : step s = .next t) : run (n + 1) s = run n t := by
  rw [run, h]

/-- An instruction that the next turn runs is one that turn picks. -/
theorem nextInstr_eq_some {s : State} {i : Instr} :
    nextInstr s = some i ↔ ∃ u ts rest, s.sched = u :: ts ∧ pick u s = some (i, rest) := by
  unfold nextInstr
  match s.sched with
  | [] => simp
  | u :: ts => simp [Option.map_eq_some_iff]

/-- A step ran the next instruction, its turn and its bytes taken, or changed nothing but the schedule and the command
port. -/
theorem step_eq_next_cases {s t : State} (h : step s = .next t) :
    (∃ i ts rest, nextInstr s = some i ∧ exec i (s.afterTaking ts rest) = .next t) ∨
    (nextInstr s = none ∧ ∃ ts bs, t = s.afterTaking ts bs) := by
  rcases step_eq_next.1 h with ⟨-, ⟨hs, rfl⟩ | ⟨u, ts, i, rest, hs, hp, he⟩ | ⟨u, ts, hs, hp, rfl⟩⟩
  · exact .inr ⟨by rw [nextInstr, hs], t.sched, t.cmdIn, rfl⟩
  · exact .inl ⟨i, ts, rest, nextInstr_eq_some.2 ⟨u, ts, rest, hs, hp⟩, he⟩
  · exact .inr ⟨by simp [nextInstr, hs, hp], ts, _, rfl⟩

/-! ## Unbounded runs -/

/-- No state of an unbounded run has stopped. -/
theorem Run.fault_eq_zero {r : Run} (h : r.valid) (n : Nat) : (r.state n).fault = 0x00#8 :=
  (step_eq_next.1 (h n)).1

/-- In an unbounded run the completion is enabled exactly while a transfer is in flight. -/
theorem Run.doneEnabled_iff {r : Run} (h : r.valid) (n : Nat) :
    doneEnabled (r.state n) = true ↔ (r.state n).busy = true := by
  simp [doneEnabled, Run.fault_eq_zero h n]

end Sys2Proof.Machine
end

