-- ==== Sys2Proof/Laws/Meanings.lean ====
section
/-! SUPPORT. For each meaning that works through shared operations, once, the shapes its result can have, from any state. -/

namespace Sys2Proof.Machine

/-! ## `ENQ` -/

/-- Filling the buffer changes only the buffer and `PEND`, which it never lowers. -/
theorem fillBuffer_shape {data left : List Byte} {s t : State} (h : fillBuffer data s = .ok (t, left)) :
    ∃ m p, t = (s.setBuf m).setPend p ∧ zext s.pend ≤ zext p := by
  induction data generalizing s with
  | nil => cases h; exact ⟨_, _, rfl, le_rfl⟩
  | cons b bs ih =>
    unfold fillBuffer at h
    split at h
    case isFalse => cases h; exact ⟨_, _, rfl, le_rfl⟩
    case isTrue hp =>
      rw [show memWrite s s.tailIndex b = _ from memWrite_eq_ok.2 ⟨s.tailIndex_lt, rfl⟩] at h
      obtain ⟨m, p, rfl, hle⟩ := ih h
      have hz : zext (toReg (zext s.pend + 1)) = zext s.pend + 1 := zext_toReg (by have := s.cap_le; omega)
      refine ⟨m, p, rfl, ?_⟩
      simp only [State.setBuf_pend, State.setPend_pend, hz] at hle
      omega

/-- Filling the buffer never stops: every cell it stores to exists. -/
theorem fillBuffer_ok (data : List Byte) (s : State) : ∃ t left, fillBuffer data s = .ok (t, left) := by
  induction data generalizing s with
  | nil => exact ⟨_, _, rfl⟩
  | cons b bs ih =>
    unfold fillBuffer
    split
    · rw [show memWrite s s.tailIndex b = _ from memWrite_eq_ok.2 ⟨s.tailIndex_lt, rfl⟩]
      exact ih _
    · exact ⟨_, _, rfl⟩

/-- Starting a transfer: nothing to start, or the oldest byte sent and `STATE` Sending. -/
theorem startTransfer_eq_ok {s t : State} :
    startTransfer s = .ok t ↔
      (startsTransfer s = false ∧ t = s) ∨
      (startsTransfer s = true ∧ ∃ b, zext s.widx < s.cap ∧ s.cell (zext s.widx) = some b ∧ s.busy = false ∧
        t = ((s.setBusy true).logTx b).setState stSending) := by
  unfold startTransfer
  by_cases hs : startsTransfer s = true
  · rw [if_pos hs]
    cases hso : sendOldest s with
    | ok u =>
      obtain ⟨b, h1, h2, h3, rfl⟩ := sendOldest_eq_ok.1 hso
      simp only [hs, h2, Except.ok.injEq, Option.some.injEq]
      constructor
      · rintro rfl; exact .inr ⟨trivial, b, h1, rfl, h3, rfl⟩
      · rintro (⟨h, -⟩ | ⟨-, c, -, rfl, -, rfl⟩)
        · cases h
        · rfl
    | error e =>
      simp only [hs, Bool.true_eq_false, false_and, true_and, false_or, reduceCtorEq, false_iff]
      rintro ⟨b, h1, h2, h3, -⟩
      rw [sendOldest_eq_ok.2 ⟨b, h1, h2, h3, rfl⟩] at hso
      cases hso
  · rw [if_neg hs]
    have hs' : startsTransfer s = false := by simpa using hs
    constructor
    · intro h; cases h; exact .inl ⟨hs', rfl⟩
    · rintro (⟨-, rfl⟩ | ⟨h, -⟩)
      · rfl
      · exact absurd h hs

/-- The ways in which sending the oldest byte ends the step. -/
theorem sendOldest_eq_error {s : State} {e : Stop} (h : sendOldest s = .error e) :
    (∃ b, s.busy = true ∧ s.cell (zext s.widx) = some b ∧ e = .raised .writeCollision (infoOfByte b)) ∨
    (s.cell (zext s.widx) = none ∧ e = .raised .unwrittenRead (infoOfIndex (zext s.widx))) ∨
    (s.cap ≤ zext s.widx ∧ e = .noCell (zext s.widx)) := by
  unfold sendOldest at h
  split at h
  case h_1 b hb =>
    unfold dataRegWrite at h
    split at h
    · cases h; exact .inl ⟨b, ‹_›, (memRead_eq_ok.1 hb).2, rfl⟩
    · cases h
  case h_2 e' he =>
    cases h
    unfold memRead at he
    split at he
    · split at he
      · cases he
      · cases he; exact .inr (.inl ⟨‹_›, rfl⟩)
    · cases he; exact .inr (.inr ⟨by omega, rfl⟩)

/-- What `ENQ` leaves behind when it goes through: the buffer and `PEND` filled, `RIDX` at `WIDX`, the transfer started or
not, and one response. -/
theorem enqueue_shape {data : List Byte} {s t : State} (h : enqueue data s = .ok t) :
    ∃ m p u r, u = ((s.setRidx s.widx).setBuf m).setPend p ∧ zext s.pend ≤ zext p ∧
      (t = u.respond [r] ∨
       ∃ b, startsTransfer u = true ∧ u.busy = false ∧ u.cell (zext u.widx) = some b ∧
        t = (((u.setBusy true).logTx b).setState stSending).respond [r]) := by
  unfold enqueue at h
  split at h
  case h_1 u left hu =>
    obtain ⟨m, p, hup, hle⟩ := fillBuffer_shape hu
    split at h
    case h_1 v hv =>
      cases h
      refine ⟨m, p, u, countByte left.length, hup, hle, ?_⟩
      rcases startTransfer_eq_ok.1 hv with ⟨-, rfl⟩ | ⟨hs, b, -, hb, hbusy, rfl⟩
      · exact .inl rfl
      · exact .inr ⟨b, hs, hbusy, hb, rfl⟩
    case h_2 => cases h
  case h_2 => cases h

/-! ## `READ` -/

/-- Copying out changes only `RIDX`. -/
theorem copyOut_shape {n : Nat} {s t : State} {out : List Byte} (h : copyOut n s = .ok (t, out)) :
    ∃ r, t = s.setRidx r := by
  induction n generalizing s out with
  | zero => cases h; exact ⟨_, rfl⟩
  | succ n ih =>
    unfold copyOut at h
    split at h
    · cases h; exact ⟨_, rfl⟩
    · split at h
      · split at h
        · cases h
          obtain ⟨r, rfl⟩ := ih ‹_›
          exact ⟨r, rfl⟩
        · cases h
      · cases h

/-- What `READ` leaves behind when it goes through: `RIDX` and one response, `[00]` outside Complete. -/
theorem readOut_shape {m : Byte} {s t : State} (h : readOut m s = .ok t) :
    (s.state = stComplete ∧ ∃ r out, t = (s.setRidx r).respond (countByte out.length :: out)) ∨
    (s.state ≠ stComplete ∧ t = s.respond [countByte 0]) := by
  unfold readOut at h
  split at h
  · split at h
    case h_1 u out hu =>
      cases h
      obtain ⟨r, rfl⟩ := copyOut_shape hu
      exact .inl ⟨‹_›, r, out, rfl⟩
    case h_2 => cases h
  · cases h; exact .inr ⟨‹_›, rfl⟩

/-! ## `DONE` -/

/-- What `DONE` leaves behind when it goes through: the byte stored, `WIDX` and `PEND` moved on, and the chain continued or
`STATE` Complete. -/
theorem complete_shape {rx : Byte} {s t : State} (h : complete rx s = .ok t) :
    ∃ u, u = (((s.setBusy false).setBuf (Memory.write s.buf (zext s.widx) rx)).setWidx
          (toReg (nextIndex s.cap (zext s.widx)))).setPend (toReg (zext s.pend - 1)) ∧
      zext s.pend ≠ 0 ∧ zext s.widx < s.cap ∧
      ((0 < zext u.pend ∧ ∃ b, u.cell (zext u.widx) = some b ∧ t = (u.setBusy true).logTx b) ∨
       (zext u.pend = 0 ∧ t = u.setState stComplete)) := by
  unfold complete at h
  split at h
  · cases h
  · split at h
    case h_1 v hv =>
      obtain ⟨hlt, rfl⟩ := memWrite_eq_ok.1 hv
      refine ⟨_, rfl, ‹_›, hlt, ?_⟩
      unfold continueOrFinish at h
      split at h
      · obtain ⟨b, -, hb, -, rfl⟩ := sendOldest_eq_ok.1 h
        exact .inl ⟨‹_›, b, hb, rfl⟩
      · cases h
        exact .inr ⟨Nat.eq_zero_of_not_pos ‹_›, rfl⟩
    case h_2 => cases h

end Sys2Proof.Machine
end

