-- ==== Sys2Proof/Laws/PerInstr.lean ====
section
/-! SUPPORT. Facts about every instruction as syntax, one lemma per constructor. -/

namespace Sys2Proof.Laws.EncodedLength

/-- A well-formed command's bytes are exactly as many as its first two bytes tell (30_encoding.md R48), and an event has
none (R52). -/
def Statement (i : Instr) : Prop :=
  i.wellFormed = true →
    match encode i with
    | some (op :: arg :: rest) => i.isCommand = true ∧ 2 + rest.length = commandLength op arg
    | some _ => False
    | none => i.isCommand = false

theorem init : Statement .init := fun _ => ⟨rfl, rfl⟩
theorem attach : Statement .attach := fun _ => ⟨rfl, rfl⟩
theorem release : Statement .release := fun _ => ⟨rfl, rfl⟩
theorem enq (data : List Byte) : Statement (.enq data) := fun h => by
  have h' : data.length ≤ 255 := by simpa [Instr.wellFormed] using h
  refine ⟨rfl, ?_⟩
  simp [commandLength]
  omega
theorem read (maxLen : Byte) : Statement (.read maxLen) := fun _ => ⟨rfl, rfl⟩
theorem isc : Statement .isc := fun _ => ⟨rfl, rfl⟩
theorem poll : Statement .poll := fun _ => ⟨rfl, rfl⟩
theorem illegal (cw : Word) : Statement (.illegal cw) := fun h => by
  have h4 : cw.extractLsb' 8 8 ≠ 0x04#8 := fun e => by
    simp only [Instr.wellFormed, e] at h
    revert h
    generalize cw.extractLsb' 0 8 = arg
    intro h
    simp [isIllegalWord] at h
  exact ⟨rfl, (if_neg h4).symm⟩
theorem done (rx : Byte) : Statement (.done rx) := fun _ => rfl
theorem corrupt (v : Byte) : Statement (.corrupt v) := fun _ => rfl

end Sys2Proof.Laws.EncodedLength
end

