-- ==== Sys2Proof/Tests/Slice0.lean ====
section
/-! SUPPORT. Tests. Expected results are those of spec/95_test_vectors.md (the vector's id in the name), of the rules, or of the
encodings of spec/30_encoding.md written out byte by byte. Then, for each statement with hypotheses, states and operands that
meet them. -/

namespace Sys2Proof.Tests

open Sys2Proof Sys2Proof.Machine

/-! ## Helpers -/

/-- A state of the channel, `STATE R W P B` as the vectors write it, with its written cells. -/
def chan (st r w p : Byte) (b : Bool) (cells : List Host.Cell) : State :=
  { State.reset with state := st, ridx := r, widx := w, pend := p, busy := b, buf := cells }

/-- Cells from index `a` on. -/
def cellsFrom (a : Nat) (bs : List Byte) : List Host.Cell := bs.mapIdx fun k b => (a + k, b)

/-- The state after an outcome, or the power-on state if there is none. -/
def after : Host.Outcome State Fault Refusal → State
  | .next t => t
  | .fault _ => State.reset
  | .refused _ => State.reset

/-- A running transfer: two bytes pending, the first in flight. -/
def sending : State := chan 0x02#8 0 0 2 true (cellsFrom 0 [0x11#8, 0x22#8])

/-- A finished transfer of two bytes, unread. -/
def finished : State := chan 0x03#8 0 2 0 false (cellsFrom 0 [0xE1#8, 0xE2#8])

/-- A transfer in flight that `POLL` must recover. -/
def corrupted : State := { sending with state := 0x7F#8 }

/-- A full buffer while Sending (vector E7). -/
def full : State := chan 0x02#8 4 4 10 true (cellsFrom 0 (List.replicate 10 0x00#8))

/-- A transfer in flight, corrupted to Attached. -/
def corruptedToAttached : State := { sending with state := 0x01#8 }

/-- Attached by a new client after an `INIT` during a transfer, which is still in flight with nothing pending. -/
def attachedOverTransfer : State := chan 0x01#8 0 0 0 true (cellsFrom 0 [0x11#8])

/-- The parameters with fault injection. -/
def withCorruption : Config := { Config.default with allowCorruption := true }

/-! ## WellFormed: an ill-formed term for each check -/

theorem test_wf_refuses_enq_of_256 (b : Byte) : (Instr.enq (List.replicate 256 b)).wellFormed = false := by
  rw [Instr.wellFormed, List.length_replicate]; rfl
theorem test_wf_refuses_illegal_of_init : (Instr.illegal 0x0100#16).wellFormed = false := by decide
theorem test_wf_refuses_illegal_of_enq : (Instr.illegal 0x04FF#16).wellFormed = false := by decide
theorem test_wf_refuses_illegal_of_read : (Instr.illegal 0x0500#16).wellFormed = false := by decide

/-! ## Decoding: words written out from R44; D-ids from 95_test_vectors.md section 2.1 -/

theorem test_decode_D2_init : decode [0b00000001#8, 0b00000000#8] = .taken .init [] := by decide
theorem test_decode_D4_attach : decode [0b00000010#8, 0b00000000#8] = .taken .attach [] := by decide
theorem test_decode_D5_release : decode [0b00000011#8, 0b00000000#8] = .taken .release [] := by decide
theorem test_decode_D7_enq : decode [0b00000100#8, 0b00000100#8, 0xAA#8, 0xBB#8, 0xCC#8, 0xDD#8, 0x07#8] =
    .taken (.enq [0xAA#8, 0xBB#8, 0xCC#8, 0xDD#8]) [0x07#8] := by decide
theorem test_decode_D10_read : decode [0b00000101#8, 0b00001010#8] = .taken (.read 10#8) [] := by decide
theorem test_decode_D11_isc : decode [0b00000110#8, 0b00000000#8] = .taken .isc [] := by decide
theorem test_decode_D12_poll : decode [0b00000111#8, 0b00000000#8] = .taken .poll [] := by decide
theorem test_decode_D13_illegal : decode [0b00000111#8, 0b10000000#8] = .taken (.illegal 0x0780#16) [] := by decide
theorem test_decode_D15_illegal : decode [0xFF#8, 0x00#8, 0x01#8] = .taken (.illegal 0xFF00#16) [0x01#8] := by decide
theorem test_decode_partly_arrived : decode [0x04#8, 0x02#8, 0xAA#8] = .partlyArrived := by decide
theorem test_encode_enq : encode (.enq [0xAA#8, 0xBB#8]) = some [0x04#8, 0x02#8, 0xAA#8, 0xBB#8] := by decide
theorem test_table_word_poll : decodeTableWord 16 0x0700 = some .poll := by decide
theorem test_table_word_enq : decodeTableWord 16 0x0402 = some (.enq [0x00#8, 0x00#8]) := by decide
theorem test_table_word_data : decodeTableWord 32 0xBBAA0402 = some (.enq [0xAA#8, 0xBB#8]) := by decide
theorem test_fetch_word : step (State.reset.withFetchWord 16 0x0200) = exec .attach State.reset := rfl

/-! ## Meanings -/

theorem test_init_I3 : after (exec .init (chan 0x02#8 0 1 3 true [])) =
    { chan 0x00#8 0 0 0 true [] with responses := [[]] } := by decide
theorem test_attach_A6 : after (exec .attach (chan 0x00#8 0 0 2 false [])) =
    { chan 0x01#8 0 0 2 false [] with responses := [[0x01#8]] } := by decide
theorem test_attach_A4 : after (exec .attach finished) = { finished with responses := [[0x00#8]] } := by decide
theorem test_release_L1 : after (exec .release finished) =
    { finished with state := 0x00#8, responses := [[0x01#8]] } := by decide
theorem test_release_L2 : after (exec .release (chan 0x03#8 0 0 3 false [])) =
    { chan 0x03#8 0 0 3 false [] with responses := [[0x00#8]] } := by decide
theorem test_enq_E8_wraps : after (exec (.enq [0x30#8, 0x31#8, 0x32#8, 0x33#8, 0x34#8]) (chan 0x03#8 3 7 0 false [])) =
    { chan 0x02#8 7 7 5 true [(0, 0x33#8), (1, 0x34#8), (7, 0x30#8), (8, 0x31#8), (9, 0x32#8)] with
      txlog := [0x30#8], responses := [[0x00#8]] } := by decide
theorem test_enq_E11_collides : after (exec (.enq [0x03#8]) (chan 0x01#8 0 0 2 true (cellsFrom 0 [0x01#8, 0x02#8]))) =
    { chan 0x01#8 0 0 2 true (cellsFrom 0 [0x01#8, 0x02#8]) with fault := 0x03#8, faultInfo := 0x0001#16 } := by decide
theorem test_read_RD6_wraps : after (exec (.read 5#8)
      (chan 0x03#8 7 2 0 false [(0, 0x43#8), (1, 0x44#8), (7, 0x40#8), (8, 0x41#8), (9, 0x42#8)])) =
    { chan 0x03#8 2 2 0 false [(0, 0x43#8), (1, 0x44#8), (7, 0x40#8), (8, 0x41#8), (9, 0x42#8)] with
      responses := [[0x05#8, 0x40#8, 0x41#8, 0x42#8, 0x43#8, 0x44#8]] } := by decide
theorem test_read_RD7_invalid : after (exec (.read 4#8) (chan 0x7F#8 0 2 0 false [])) =
    { chan 0x7F#8 0 2 0 false [] with responses := [[0x00#8]] } := by decide
theorem test_isc_S1 : (after (exec .isc finished)).responses = [[0x01#8]] := by decide
theorem test_isc_S4 : (after (exec .isc corrupted)).responses = [[0x00#8]] := by decide
theorem test_poll_PL7 : after (exec .poll corrupted) = { sending with state := 0x00#8, responses := [[]] } := by decide
theorem test_poll_PL4 : (after (exec .poll (chan 0x02#8 0 0 0 false []))).state = 0x03#8 := by decide
theorem test_illegal_D13 : after (exec (.illegal 0x0780#16) sending) =
    { sending with fault := 0x01#8, faultInfo := 0x0780#16 } := by decide
theorem test_done_X3_wraps : after (exec (.done 0x42#8) (chan 0x02#8 7 9 2 true [(0, 0x33#8), (9, 0x32#8)])) =
    { chan 0x02#8 7 0 1 true [(0, 0x33#8), (9, 0x42#8)] with txlog := [0x33#8] } := by decide
theorem test_done_X4_spurious : after (exec (.done 0x5A#8) (chan 0x00#8 0 0 0 true [])) =
    { chan 0x00#8 0 0 0 true [] with fault := 0x02#8, faultInfo := 0x005A#16 } := by decide
theorem test_corrupt_CR1 : after (exec (.corrupt 0x7F#8) { sending with cfg := withCorruption }) =
    { corrupted with cfg := withCorruption } := by decide
theorem test_corrupt_CR2 : exec (.corrupt 0x7F#8) sending = .refused (.notEnabled "CORRUPT") := rfl

/-! ## Hypotheses that are met -/

theorem witness_DecodeOfEncodeGivesInstructionBack :
    (Instr.enq [0xAA#8]).wellFormed = true ∧ encode (.enq [0xAA#8]) = some [0x04#8, 0x01#8, 0xAA#8] ∧
    (Instr.illegal 0x0101#16).wellFormed = true ∧ encode (.illegal 0x0101#16) = some [0x01#8, 0x01#8] := by decide

theorem witness_EncodeOfDecodeGivesBytesBack :
    decode [0x05#8, 0xFF#8, 0x00#8] = .taken (.read 0xFF#8) [0x00#8] := by decide

theorem witness_EveryWordIsOneCommandOrIllegal :
    ((0x04#8 : Byte) = 0x04#8 → (0x02#8).toNat ≤ [0xAA#8, 0xBB#8].length) ∧
    ((0x08#8 : Byte) = 0x04#8 → (0x00#8).toNat ≤ ([] : List Byte).length) := by decide

theorem witness_LengthIsToldByTheFirstTwoBytes :
    decode [0x04#8, 0x01#8, 0xAA#8, 0xBB#8] = .taken (.enq [0xAA#8]) [0xBB#8] ∧
    decode [0x04#8, 0x01#8] = .partlyArrived := by decide

theorem witness_ProperPrefixOfCommandIsNotTaken :
    (Instr.enq [0xAA#8, 0xBB#8]).wellFormed = true ∧
    encode (.enq [0xAA#8, 0xBB#8]) = some ([0x04#8, 0x02#8, 0xAA#8] ++ [0xBB#8]) ∧ [0xBB#8] ≠ ([] : List Byte) := by decide

theorem witness_StepRunsTheDecodedCommand :
    let s := { sending with cmdIn := [0x01#8, 0x00#8, 0x07#8], sched := [.foreground] }
    s.fault = 0x00#8 ∧ s.sched = .foreground :: [] ∧ decode s.cmdIn = .taken .init [0x07#8] := by decide

theorem witness_StepRunsTheEnabledEvent :
    let s := { sending with cfg := withCorruption, sched := [.peripheral 0x5A#8] }
    let u := { sending with cfg := withCorruption, sched := [.environment 0xFF#8] }
    (s.fault = 0x00#8 ∧ s.sched = .peripheral 0x5A#8 :: [] ∧ s.busy = true) ∧
    (u.fault = 0x00#8 ∧ u.sched = .environment 0xFF#8 :: [] ∧ u.cfg.allowCorruption = true) := by decide

theorem witness_TurnWithoutStepIsPassedOver :
    (State.reset.fault = 0x00#8 ∧ State.reset.sched = [] ∧ decode State.reset.cmdIn = .partlyArrived ∧
      State.reset.busy = false ∧ State.reset.cfg.allowCorruption = false) ∧
    ({ State.reset with sched := [.foreground] } : State).sched = .foreground :: [] ∧
    ({ State.reset with sched := [.peripheral 1#8] } : State).sched = .peripheral 1#8 :: [] ∧
    ({ State.reset with sched := [.environment 1#8] } : State).sched = .environment 1#8 :: [] ∧
    ({ State.reset with sched := [.arrive 1#8] } : State).sched = .arrive 1#8 :: [] := by decide

theorem witness_EncodedCommandOnThePortRuns :
    Instr.poll.wellFormed = true ∧ encode .poll = some [0x07#8, 0x00#8] ∧ corrupted.fault = 0x00#8 := by decide

theorem witness_RunningBlockAlwaysTakesItsStep :
    (sending.Inv ∧ sending.fault = 0x00#8) ∧ (finished.Inv ∧ finished.fault = 0x00#8) := by decide

theorem witness_InitResetsTheChannel : sending.fault = 0x00#8 ∧ sending.busy = true := by decide

/-- Both cases, and two `ATTACH` that succeed with a corruption and a recovery between them. -/
theorem witness_AttachSucceedsInIdleAlone :
    (State.reset.fault = 0x00#8 ∧ State.reset.state = 0x00#8) ∧ (sending.fault = 0x00#8 ∧ sending.state ≠ 0x00#8) ∧
    ∃ t u, exec .attach { State.reset with cfg := withCorruption } = .next t ∧
      execAll [.corrupt 0x7F#8, .poll] t = .next u ∧
      exec .attach u = .next { u with state := 0x01#8, responses := u.responses ++ [[0x01#8]] } :=
  ⟨by decide, by decide, _, _, rfl, rfl, rfl⟩

theorem witness_ReleaseSucceedsInCompleteAlone :
    (finished.fault = 0x00#8 ∧ finished.state = 0x03#8 ∧ finished.pend = 0#8) ∧ sending.fault = 0x00#8 := by decide

theorem witness_IscReportsComplete :
    finished.Clean ∧ ∃ t, exec .isc finished = .next t ∧ t.responses = finished.responses ++ [[0x01#8]] :=
  ⟨by decide, _, rfl, rfl⟩

theorem witness_PollRecoversInvalidStates :
    (corrupted.fault = 0x00#8 ∧ ({ corrupted with state := 0x04#8 } : State).fault = 0x00#8) ∧
    (sending.Clean ∧ sending.fault = 0x00#8) ∧
    ∃ t, exec (.corrupt 0x02#8) { finished with cfg := withCorruption } = .next t ∧ t.state = 0x02#8 ∧ t.pend = 0#8 :=
  ⟨by decide, by decide, _, rfl, rfl, rfl⟩

theorem witness_CorruptWritesStateAlone :
    (sending.fault = 0x00#8 ∧ sending.cfg.allowCorruption = false) ∧
    ({ sending with cfg := withCorruption } : State).cfg.allowCorruption = true ∧
    (∀ v, Instr.enq [0x33#8] ≠ .corrupt v) ∧ ∃ t, exec (.enq [0x33#8]) finished = .next t :=
  ⟨by decide, rfl, by simp, _, rfl⟩

theorem witness_IllegalWordIsRecorded :
    sending.fault = 0x00#8 ∧ isIllegalWord 0x08#8 0x00#8 = true ∧ isIllegalWord 0x07#8 0x01#8 = true := by decide

/-- A start, a full buffer while Sending, a queueing while Idle, and a collision. -/
theorem witness_EnqAppendsAndStarts :
    (finished.Inv ∧ finished.fault = 0x00#8 ∧ [0x30#8].length ≤ 255 ∧ finished.busy = false ∧
      finished.state = 0x03#8 ∧ 0 < zext finished.pend + queuedCount [0x30#8] finished) ∧
    (full.Inv ∧ full.fault = 0x00#8 ∧ queuedCount [0xFF#8] full = 0) ∧
    (State.reset.Inv ∧ State.reset.fault = 0x00#8 ∧ queuedCount [0x11#8] State.reset = 1) ∧
    sending.Clean ∧
    (corruptedToAttached.Inv ∧ corruptedToAttached.fault = 0x00#8 ∧ corruptedToAttached.busy = true ∧
      corruptedToAttached.state = 0x01#8 ∧ 0 < zext corruptedToAttached.pend + queuedCount [] corruptedToAttached) :=
  ⟨by decide, by decide, by decide, by decide, by decide⟩

theorem witness_EnqQueuesWhatFitsAndReportsTheRest :
    (sending.Inv ∧ sending.fault = 0x00#8 ∧ (List.replicate 12 0x00#8).length ≤ 255 ∧
      ¬ enqCollides (List.replicate 12 0x00#8) sending) ∧
    (attachedOverTransfer.Inv ∧ attachedOverTransfer.fault = 0x00#8 ∧ attachedOverTransfer.busy = true ∧
      ¬ enqCollides [] attachedOverTransfer) := by decide

theorem witness_ReadReturnsTheOldestUnread :
    (finished.Inv ∧ finished.fault = 0x00#8 ∧ finished.state = 0x03#8 ∧ finished.unreadCount = 2) ∧
    (sending.Inv ∧ sending.fault = 0x00#8 ∧ sending.state ≠ 0x03#8) := by decide

/-- More bytes to come, the last byte, none, and how none comes about. -/
theorem witness_DoneStoresAndContinues :
    (sending.Inv ∧ sending.fault = 0x00#8 ∧ sending.busy = true ∧ sending.pend ≠ 0#8 ∧ 1 < zext sending.pend) ∧
    (({ sending with pend := 1#8 } : State).Inv ∧ ({ sending with pend := 1#8 } : State).busy = true) ∧
    (({ sending with pend := 0#8 } : State).Inv ∧ ({ sending with pend := 0#8 } : State).busy = true) ∧
    ∃ t, exec .init sending = .next t ∧ t.busy = true ∧ t.pend = 0#8 :=
  ⟨by decide, by decide, by decide, _, rfl, rfl, rfl⟩

theorem witness_DoneIsEnabledExactlyWhenBusy : sending.Inv ∧ finished.Inv := by decide

/-- Every instruction that stores to no cell answers a next state somewhere. -/
theorem witness_NonStoringInstructionsKeepTheBuffer :
    finished.Inv ∧ (∀ data, Instr.read 2#8 ≠ .enq data) ∧ (∀ rx, Instr.read 2#8 ≠ .done rx) ∧
    (∃ t, exec .init finished = .next t) ∧ (∃ t, exec .attach finished = .next t) ∧
    (∃ t, exec .release finished = .next t) ∧ (∃ t, exec (.read 2#8) finished = .next t) ∧
    (∃ t, exec .isc finished = .next t) ∧ (∃ t, exec .poll finished = .next t) ∧
    (∃ t, exec (.illegal 0x0000#16) finished = .next t) ∧
    (∃ t, exec (.corrupt 0x01#8) { finished with cfg := withCorruption } = .next t) :=
  ⟨by decide, by simp, by simp, ⟨_, rfl⟩, ⟨_, rfl⟩, ⟨_, rfl⟩, ⟨_, rfl⟩, ⟨_, rfl⟩, ⟨_, rfl⟩, ⟨_, rfl⟩, ⟨_, rfl⟩⟩

/-- Each row of the table: a step that does not stop the block; and a step that runs nothing. -/
theorem witness_StateChangesByTheTable :
    (∃ t, step State.reset = .next t ∧ nextInstr State.reset = none) ∧
    (∃ t, exec .init sending = .next t ∧ t.fault = 0x00#8) ∧
    (∃ t, exec .attach sending = .next t ∧ t.fault = 0x00#8) ∧
    (∃ t, exec .release finished = .next t ∧ t.fault = 0x00#8) ∧
    (∃ t, exec (.enq [0x33#8]) sending = .next t ∧ t.fault = 0x00#8) ∧
    (∃ t, exec (.read 0xFF#8) finished = .next t ∧ t.fault = 0x00#8) ∧
    (∃ t, exec .isc finished = .next t ∧ t.fault = 0x00#8) ∧
    (∃ t, exec .poll corrupted = .next t ∧ t.fault = 0x00#8) ∧
    (∃ t, exec (.done 0x5A#8) sending = .next t ∧ t.fault = 0x00#8) ∧
    (∃ t, exec (.corrupt 0xFF#8) { sending with cfg := withCorruption } = .next t ∧ t.fault = 0x00#8) :=
  ⟨⟨_, rfl, rfl⟩, ⟨_, rfl, rfl⟩, ⟨_, rfl, rfl⟩, ⟨_, rfl, rfl⟩, ⟨_, rfl, rfl⟩, ⟨_, rfl, rfl⟩, ⟨_, rfl, rfl⟩,
    ⟨_, rfl, rfl⟩, ⟨_, rfl, rfl⟩, ⟨_, rfl, rfl⟩⟩

/-- Each of the four changes happens. -/
theorem witness_IndexWritersAreThoseListed :
    (∃ t, exec (.read 1#8) finished = .next t ∧ t.ridx ≠ finished.ridx) ∧
    (∃ t, exec (.done 0x5A#8) sending = .next t ∧ t.widx ≠ sending.widx ∧ zext t.pend < zext sending.pend) ∧
    (∃ t, exec (.enq [0x33#8]) sending = .next t ∧ zext sending.pend < zext t.pend) :=
  ⟨⟨_, rfl, by decide⟩, ⟨_, rfl, by decide, by decide⟩, ⟨_, rfl, by decide⟩⟩

theorem witness_TxlogGrowsByTheOldestUnsentByte :
    (∃ t, exec (.done 0x5A#8) sending = .next t ∧ t.txlog = [0x22#8]) ∧
    (∃ t, exec (.enq [0x33#8]) finished = .next t ∧ t.txlog = [0x33#8]) := ⟨⟨_, rfl, rfl⟩, ⟨_, rfl, rfl⟩⟩

theorem witness_ParametersNeverChange :
    ∃ t, step { sending with sched := [.peripheral 0x5A#8] } = .next t := ⟨_, rfl⟩

theorem witness_StoppingStepDiscardsItsEffects :
    (∃ t, sending.fault = 0x00#8 ∧ exec (.illegal 0x0800#16) sending = .next t ∧ t.fault ≠ 0x00#8) ∧
    ({ sending with fault := 0x01#8 } : State).fault ≠ 0x00#8 :=
  ⟨⟨_, rfl, rfl, by decide⟩, by decide⟩

theorem witness_NoStepIsAnsweredByName :
    ({ sending with fault := 0x03#8 } : State).fault ≠ 0x00#8 ∧ finished.fault = 0x00#8 ∧ finished.busy = false ∧
    finished.cfg.allowCorruption = false := by decide

/-- Each of the three stops that a run reaches. -/
theorem witness_EachCodeHasItsInstruction :
    (∃ t, sending.Inv ∧ sending.fault = 0x00#8 ∧ exec (.illegal 0x0800#16) sending = .next t ∧ t.fault ≠ 0x00#8) ∧
    (∃ t, ({ sending with pend := 0#8 } : State).Inv ∧
      exec (.done 0x5A#8) { sending with pend := 0#8 } = .next t ∧ t.fault ≠ 0x00#8) ∧
    (∃ t, ({ sending with state := 0x01#8 } : State).Inv ∧
      exec (.enq [0x33#8]) { sending with state := 0x01#8 } = .next t ∧ t.fault ≠ 0x00#8) :=
  ⟨⟨_, by decide, rfl, rfl, by decide⟩, ⟨_, by decide, rfl, by decide⟩, ⟨_, by decide, rfl, by decide⟩⟩

/-- Each of the four ways back. -/
theorem witness_OnlyTheListedStepsReachIdle :
    (∃ t, exec .init sending = .next t ∧ sending.state ≠ 0x00#8 ∧ t.state = 0x00#8) ∧
    (∃ t, exec .release finished = .next t ∧ finished.state ≠ 0x00#8 ∧ t.state = 0x00#8) ∧
    (∃ t, exec .poll corrupted = .next t ∧ corrupted.state ≠ 0x00#8 ∧ t.state = 0x00#8) ∧
    (∃ t, exec (.corrupt 0x00#8) { sending with cfg := withCorruption } = .next t ∧ sending.state ≠ 0x00#8 ∧
      t.state = 0x00#8) :=
  ⟨⟨_, rfl, by decide, rfl⟩, ⟨_, rfl, by decide, rfl⟩, ⟨_, rfl, by decide, rfl⟩, ⟨_, rfl, by decide, rfl⟩⟩

theorem witness_ResetHoldsThePowerOnValues : finished.fault = 0x00#8 := rfl

/-- A state with bytes in both regions, and a step of each agent, and of the outside, from states that meet the invariant. -/
theorem witness_EveryStepKeepsTheInvariant :
    ((chan 0x02#8 0 9 1 true (cellsFrom 0 (List.replicate 10 0x00#8))).Inv ∧
      8 < (chan 0x02#8 0 9 1 true []).unreadCount ∧ 0 < zext (chan 0x02#8 0 9 1 true []).pend) ∧
    (∃ t, ({ sending with sched := [.peripheral 0x5A#8] } : State).Inv ∧
      step { sending with sched := [.peripheral 0x5A#8] } = .next t) ∧
    (∃ t, ({ finished with sched := [.foreground], cmdIn := [0x05#8, 0x01#8] } : State).Inv ∧
      step { finished with sched := [.foreground], cmdIn := [0x05#8, 0x01#8] } = .next t) ∧
    (∃ t, ({ sending with cfg := withCorruption, sched := [.environment 0x7F#8] } : State).Inv ∧
      step { sending with cfg := withCorruption, sched := [.environment 0x7F#8] } = .next t) ∧
    (∃ t, ({ sending with sched := [.arrive 0x05#8] } : State).Inv ∧
      step { sending with sched := [.arrive 0x05#8] } = .next t) :=
  ⟨by decide, ⟨_, by decide, rfl⟩, ⟨_, by decide, rfl⟩, ⟨_, by decide, rfl⟩, ⟨_, by decide, rfl⟩⟩

theorem witness_CleanStepsKeepCleanStates :
    (∃ t, let s := { sending with sched := [.peripheral 0x5A#8] }
      s.Inv ∧ s.Clean ∧ s.fault = 0x00#8 ∧ cleanStep s = true ∧ step s = .next t) ∧
    (∃ t, let s := { finished with sched := [.foreground], cmdIn := [0x01#8, 0x00#8] }
      s.Inv ∧ s.Clean ∧ s.fault = 0x00#8 ∧ cleanStep s = true ∧ step s = .next t) ∧
    (∃ t, let s := { sending with sched := [.foreground], cmdIn := [0x07#8, 0x00#8] }
      s.Inv ∧ s.Clean ∧ s.fault = 0x00#8 ∧ cleanStep s = true ∧ step s = .next t ∧ nextInstr s = some .poll) :=
  ⟨⟨_, by decide, by decide, rfl, rfl, rfl⟩, ⟨_, by decide, by decide, rfl, rfl, rfl⟩,
    ⟨_, by decide, by decide, rfl, rfl, rfl, rfl⟩⟩

theorem witness_EnqAppendsBehindThePendingBytes :
    (sending.Inv ∧ sending.fault = 0x00#8 ∧ ¬ enqCollides [0x33#8] sending) ∧
    (attachedOverTransfer.Inv ∧ attachedOverTransfer.fault = 0x00#8 ∧ ¬ enqCollides [] attachedOverTransfer) := by decide

/-- With room in the read window, and with the byte that fills the ring. -/
theorem witness_DoneMovesOneByteToTheReadWindow :
    (sending.Inv ∧ sending.fault = 0x00#8 ∧ sending.busy = true ∧ sending.pend ≠ 0#8 ∧
      sending.unreadCount + 1 ≠ sending.cap) ∧
    (let s := chan 0x02#8 0 9 1 true (cellsFrom 0 (List.replicate 10 0x00#8))
     s.Inv ∧ s.fault = 0x00#8 ∧ s.busy = true ∧ s.pend ≠ 0#8 ∧ s.unreadCount + 1 = s.cap) := by decide

theorem witness_ReadTakesFromTheReadWindow :
    finished.Inv ∧ finished.fault = 0x00#8 ∧ finished.state = 0x03#8 := by decide

/-- A transfer of two bytes, and one of `CAP = 10`. -/
theorem witness_CompletionsFinishTheTransfer :
    (let rxs := [0xE1#8, 0xE2#8]
     let s := { sending with sched := rxs.map Turn.peripheral ++ [] }
     s.Inv ∧ s.fault = 0x00#8 ∧ s.busy = true ∧ s.ridx = s.widx ∧ rxs ≠ [] ∧ rxs.length = zext s.pend ∧
      s.sched = rxs.map Turn.peripheral ++ []) ∧
    (let rxs := List.replicate 10 0x80#8
     let s := { chan 0x02#8 0 0 10 true (cellsFrom 0 (List.replicate 10 0x00#8)) with
                sched := rxs.map Turn.peripheral ++ [] }
     s.Inv ∧ s.fault = 0x00#8 ∧ s.busy = true ∧ s.ridx = s.widx ∧ rxs ≠ [] ∧ rxs.length = zext s.pend ∧
      s.sched = rxs.map Turn.peripheral ++ [] ∧ rxs.length = s.cap) := by decide

theorem witness_CellReadsAsTheByteLastStored :
    9 < sending.cap ∧ (0 < State.reset.cap ∧ State.reset.cell 0 = none) := by decide

theorem witness_IndexArithmeticStaysInTheRing :
    (sending.indexInv ∧ 0 < zext sending.pend) ∧ (chan 0x03#8 9 0 10 false []).indexInv := by decide

theorem witness_ReadAfterReleaseReturnsNothing :
    finished.fault = 0x00#8 ∧ finished.state = 0x03#8 ∧ finished.pend = 0#8 := by decide

theorem witness_RecoveryLeavesTheTransferRunning :
    (corrupted.Inv ∧ corrupted.fault = 0x00#8 ∧ 0x04#8 ≤ corrupted.state ∧ corrupted.busy = true ∧
      corrupted.pend ≠ 0#8 ∧ [0x03#8].length ≤ 255) ∧
    (let s := { corrupted with state := 0x04#8, pend := 1#8 }
     s.Inv ∧ s.fault = 0x00#8 ∧ 0x04#8 ≤ s.state ∧ s.busy = true ∧ s.pend ≠ 0#8) := by decide

/-- The last byte of a transfer, with its completion next. -/
def lastByte : State := { sending with pend := 1#8, sched := [.peripheral 0x5A#8] }

/-- The run in which that transfer completes and nothing happens from then on. -/
def completingRun : Run where
  state
    | 0 => lastByte
    | _ + 1 => after (step lastByte)
  added := fun _ => []

theorem completingRun_valid : completingRun.valid
  | 0 => rfl
  | _ + 1 => rfl

theorem completingRun_fair : completingRun.fair := fun n h =>
  absurd (h (n + 1) (Nat.le_succ n)) (show ¬ doneEnabled (after (step lastByte)) = true by decide)

/-- A fair run with a transfer in flight, and a run that stutters with one. -/
theorem witness_FairRunCompletesEveryTransfer :
    (completingRun.valid ∧ completingRun.fair ∧ (completingRun.state 0).busy = true) ∧
    (({ state := fun _ => sending, added := fun _ => [] } : Run).valid ∧ sending.busy = true) :=
  ⟨⟨completingRun_valid, completingRun_fair, rfl⟩, fun _ => rfl, rfl⟩

theorem witness_FairRunFinishesTheTransfer :
    completingRun.valid ∧ completingRun.fair ∧ (completingRun.state 0).busy = true ∧
    ∀ m data, 0 ≤ m → nextInstr (completingRun.before m) ≠ some (.enq data) :=
  ⟨completingRun_valid, completingRun_fair, rfl, fun m data _ => by
    cases m with
    | zero => exact show some (Instr.done 0x5A#8) ≠ some (.enq data) by simp
    | succ m => exact show none ≠ some (Instr.enq data) by simp⟩

theorem witness_FairRunGoesOnFromEveryState :
    (sending.Inv ∧ sending.fault = 0x00#8 ∧ sending.sched = [] ∧ sending.pend ≠ 0#8) ∧
    (finished.Inv ∧ finished.fault = 0x00#8 ∧ finished.sched = [] ∧ finished.busy = false) := by decide

end Sys2Proof.Tests
end

/-! ## What an instruction answers, once per instruction -/

namespace Sys2Proof.Machine

variable {s t u : State}

/-- A meaning that always goes through answers its state in a block that has not stopped. -/
theorem whileRunning_next_eq_next : whileRunning s (.next u) = .next t ↔ s.fault = 0x00#8 ∧ t = u := by
  rw [whileRunning_eq_next, Host.Outcome.next.injEq, eq_comm (a := u)]

/-- 70_reset_and_hazards.md R83. -/
theorem exec_init_eq_next : exec .init s = .next t ↔
    s.fault = 0x00#8 ∧ t = ((((s.setState stIdle).setRidx 0#8).setWidx 0#8).setPend 0#8).respond [] :=
  whileRunning_next_eq_next

/-- 41_attach_release.md R57. -/
theorem exec_attach_eq_next : exec .attach s = .next t ↔
    s.fault = 0x00#8 ∧ t = if s.state = stIdle then (s.setState stAttached).respond [statusByte true]
      else s.respond [statusByte false] :=
  whileRunning_next_eq_next

/-- 41_attach_release.md R58. -/
theorem exec_release_eq_next : exec .release s = .next t ↔
    s.fault = 0x00#8 ∧ t = if s.state = stComplete ∧ s.pend = 0#8 then (s.setState stIdle).respond [statusByte true]
      else s.respond [statusByte false] :=
  whileRunning_next_eq_next

/-- 42_enqueue.md R60. -/
theorem exec_enq_eq_next {data : List Byte} : exec (.enq data) s = .next t ↔
    s.fault = 0x00#8 ∧ finish s (enqueue data s) = .next t :=
  whileRunning_eq_next

/-- 44_readout_status.md R66. -/
theorem exec_read_eq_next {maxLen : Byte} : exec (.read maxLen) s = .next t ↔
    s.fault = 0x00#8 ∧ finish s (readOut maxLen s) = .next t :=
  whileRunning_eq_next

/-- 44_readout_status.md R67. -/
theorem exec_isc_eq_next : exec .isc s = .next t ↔
    s.fault = 0x00#8 ∧ t = if s.state = stComplete then s.respond [statusByte true] else s.respond [statusByte false] :=
  whileRunning_next_eq_next

/-- 40_state_machine.md R55. -/
theorem exec_poll_eq_next : exec .poll s = .next t ↔
    s.fault = 0x00#8 ∧ t = (s.setState (pollState s)).respond [] :=
  whileRunning_next_eq_next

/-- 60_exceptions.md R71. -/
theorem exec_illegal_eq_next {cw : Word} : exec (.illegal cw) s = .next t ↔
    s.fault = 0x00#8 ∧ t = s.setFault .illegalCommand cw :=
  whileRunning_next_eq_next

/-- 43_completion.md R63, R64. -/
theorem exec_done_eq_next {rx : Byte} : exec (.done rx) s = .next t ↔
    s.fault = 0x00#8 ∧ s.busy = true ∧ finish s (complete rx s) = .next t := by
  rw [exec, execDone, whileRunning_eq_next]
  split <;> simp [*]

/-- 40_state_machine.md R56. -/
theorem exec_corrupt_eq_next {v : Byte} : exec (.corrupt v) s = .next t ↔
    s.fault = 0x00#8 ∧ s.cfg.allowCorruption = true ∧ t = s.setState v := by
  rw [exec, execCorrupt, whileRunning_eq_next]
  split <;> simp [*, eq_comm (a := t)]

end Sys2Proof.Machine

/-! ## The parameters (00_scope.md R4, R6) -/

namespace Sys2Proof.Machine

variable {s t : State}

/-- Recording a stop leaves the parameters, so only what goes through needs a look. -/
theorem finish_keeps_cfg {r : Except Stop State} (hok : r = .ok t → t.cfg = s.cfg) (h : finish s r = .next t) :
    t.cfg = s.cfg := by
  rcases finish_eq_next.1 h with hr | ⟨c, info, -, rfl⟩
  · exact hok hr
  · exact s.setFault_cfg c info

theorem enqueue_keeps_cfg {data : List Byte} (h : enqueue data s = .ok t) : t.cfg = s.cfg := by
  obtain ⟨m, p, u, r, rfl, -, rfl | ⟨b, -, -, -, rfl⟩⟩ := enqueue_shape h <;> simp

theorem readOut_keeps_cfg {maxLen : Byte} (h : readOut maxLen s = .ok t) : t.cfg = s.cfg := by
  obtain ⟨-, r, out, rfl⟩ | ⟨-, rfl⟩ := readOut_shape h <;> simp

theorem complete_keeps_cfg {rx : Byte} (h : complete rx s = .ok t) : t.cfg = s.cfg := by
  obtain ⟨u, rfl, -, -, ⟨-, b, -, rfl⟩ | ⟨-, rfl⟩⟩ := complete_shape h <;> simp

/-- No instruction writes the parameters. -/
theorem exec_keeps_cfg {i : Instr} (h : exec i s = .next t) : t.cfg = s.cfg := by
  cases i with
  | init => simp [(exec_init_eq_next.1 h).2]
  | attach => rw [(exec_attach_eq_next.1 h).2]; split <;> simp
  | release => rw [(exec_release_eq_next.1 h).2]; split <;> simp
  | enq data => exact finish_keeps_cfg enqueue_keeps_cfg (exec_enq_eq_next.1 h).2
  | read maxLen => exact finish_keeps_cfg readOut_keeps_cfg (exec_read_eq_next.1 h).2
  | isc => rw [(exec_isc_eq_next.1 h).2]; split <;> simp
  | poll => simp [(exec_poll_eq_next.1 h).2]
  | illegal cw => simp [(exec_illegal_eq_next.1 h).2]
  | done rx =>
    obtain ⟨-, -, hd⟩ := exec_done_eq_next.1 h
    exact finish_keeps_cfg complete_keeps_cfg hd
  | corrupt v =>
    obtain ⟨-, -, rfl⟩ := exec_corrupt_eq_next.1 h
    exact s.setState_cfg v

/-- Settles O29: a step runs an instruction, which keeps the parameters, or changes only the schedule and the port. -/
theorem parametersNeverChange : Obligations.ParametersNeverChange := by
  intro s t h
  rcases step_eq_next_cases h with ⟨i, ts, rest, -, he⟩ | ⟨-, ts, bs, rfl⟩
  · calc t.cfg = (s.afterTaking ts rest).cfg := exec_keeps_cfg he
      _ = s.cfg := s.afterTaking_cfg ts rest
  · exact s.afterTaking_cfg ts bs

end Sys2Proof.Machine

/-! ## The two regions of the ring (00_scope.md, glossary; 10_state.md R25) -/

namespace Sys2Proof.Machine

variable {s : State}

theorem State.pendingCells_length : s.pendingCells.length = zext s.pend := by simp [State.pendingCells]

theorem State.unreadCells_length : s.unreadCells.length = s.unreadCount := by simp [State.unreadCells]

theorem State.writtenInv_iff :
    s.writtenInv ↔ (∀ c ∈ s.pendingCells, c.isSome) ∧ ∀ c ∈ s.unreadCells, c.isSome := by
  simp [State.writtenInv, State.pendingCells, State.unreadCells]

/-- The read window ends at `WIDX`. -/
theorem State.readCell_unreadCount (h : s.indexInv) : s.readCell s.unreadCount = zext s.widx := by
  obtain ⟨hr, hw, -⟩ := h
  rw [State.readCell, State.unreadCount, Nat.add_mod_mod,
    show zext s.ridx + (zext s.widx + s.cap - zext s.ridx) = zext s.widx + s.cap by omega,
    Nat.add_mod_right, Nat.mod_eq_of_lt hw]

/-- The number of unread bytes is the only distance below `CAP` from `RIDX` round to `WIDX`. -/
theorem State.unreadCount_eq {n : Nat} (h : s.indexInv) (hn : n < s.cap) (e : s.readCell n = zext s.widx) :
    s.unreadCount = n := by
  by_contra hne
  exact ring_ne s.unreadCount_lt hn hne ((State.readCell_unreadCount h).trans e.symm)

/-- The pending region goes on where the read window ends. -/
theorem State.pendingCell_eq_readCell (h : s.indexInv) (k : Nat) :
    (zext s.widx + k) % s.cap = s.readCell (s.unreadCount + k) := by
  rw [← State.readCell_unreadCount h, State.readCell, State.readCell, Nat.mod_add_mod, Nat.add_assoc]

/-- 10_state.md R25: the two regions share no cell. -/
theorem State.regions_disjoint (h : s.indexInv) (hreg : s.regionsInv) {j k : Nat} (hj : j < s.unreadCount)
    (hk : k < zext s.pend) : s.readCell j ≠ (zext s.widx + k) % s.cap := by
  have hreg : zext s.pend + s.unreadCount ≤ s.cap := hreg
  rw [State.pendingCell_eq_readCell h]
  exact ring_ne (by omega) (by omega) (by omega)

/-- The oldest byte not yet sent stands in cell `WIDX` (20_memory.md R29). -/
theorem State.oldest_isSome (h : s.Inv) (hp : 0 < zext s.pend) : ∃ b, s.cell (zext s.widx) = some b := by
  obtain ⟨⟨-, hw, -⟩, -, ⟨hpend, -⟩, -, -⟩ := h
  have h0 := hpend 0 hp
  rw [Nat.add_zero, Nat.mod_eq_of_lt hw] at h0
  exact Option.isSome_iff_exists.1 h0

theorem State.pendingCells_eq_cons (h : s.indexInv) (hp : 0 < zext s.pend) :
    s.pendingCells = s.cell (zext s.widx) :: s.pendingCells.tail := by
  obtain ⟨p, hp⟩ : ∃ p, zext s.pend = p + 1 := ⟨zext s.pend - 1, by omega⟩
  rw [State.pendingCells, hp, List.range_succ_eq_map, List.map_cons, Nat.add_zero, Nat.mod_eq_of_lt h.2.1,
    List.tail_cons]

/-- A stop keeps the invariant, unless it records the code that no run reaches (60_exceptions.md R75). -/
theorem State.Inv.setFault (h : s.Inv) {c : Cause} (hc : c ≠ .unwrittenRead) (info : Word) :
    (s.setFault c info).Inv := by
  obtain ⟨hidx, hbuf, hwr, -, hreg⟩ := h
  refine ⟨hidx, hbuf, hwr, .inr ?_, hreg⟩
  cases c with
  | illegalCommand => exact .inl rfl
  | spuriousCompletion => exact .inr (.inl rfl)
  | writeCollision => exact .inr (.inr rfl)
  | unwrittenRead => exact absurd rfl hc

/-! ## What `ENQ` does to a state that meets the invariant -/

/-- The state in which `ENQ data` has emptied the read window and queued what fits, the buffer then holding `m`
(42_enqueue.md R60, steps 1 and 2). -/
def State.queued (s : State) (data : List Byte) (m : List Host.Cell) : State :=
  ((s.setRidx s.widx).setBuf m).setPend (toReg (zext s.pend + queuedCount data s))

theorem State.queued_pend (h : s.indexInv) (data : List Byte) (m : List Host.Cell) :
    zext (s.queued data m).pend = zext s.pend + queuedCount data s := by
  obtain ⟨-, -, hp⟩ := h
  have hcap := s.cap_le
  exact zext_toReg (by simp only [queuedCount]; omega)

theorem State.queued_unreadCount (data : List Byte) (m : List Host.Cell) : (s.queued data m).unreadCount = 0 := by
  simp [State.queued, State.unreadCount]

theorem State.queued_unreadCells (data : List Byte) (m : List Host.Cell) : (s.queued data m).unreadCells = [] := by
  rw [State.unreadCells, State.queued_unreadCount]; rfl

theorem queuedCount_le_length (data : List Byte) (s : State) : queuedCount data s ≤ data.length := Nat.min_le_left ..

/-- The buffer `m` keeps the pending cells of `s` and holds the bytes of `data` that fit behind them. -/
theorem State.queued_pendingCells (h : s.indexInv) {data : List Byte} {m : List Host.Cell}
    (hin : ∀ k, k < queuedCount data s → Memory.read m (s.tailCell k) = data[k]?)
    (hout : ∀ i, (∀ k, k < queuedCount data s → i ≠ s.tailCell k) → Memory.read m i = s.cell i) :
    (s.queued data m).pendingCells = s.pendingCells ++ (data.take (queuedCount data s)).map some := by
  have hq : queuedCount data s ≤ s.cap - zext s.pend := Nat.min_le_right ..
  have hqd := queuedCount_le_length data s
  rw [State.pendingCells, State.queued_pend h, List.range_add, List.map_append]
  congr 1
  · refine List.map_congr_left fun k hk => ?_
    have hk := List.mem_range.1 hk
    exact hout _ fun j hj => ring_ne (n := s.cap) (by omega) (by omega) (by omega)
  · refine List.ext_getElem (by simpa using hqd) fun k hk _ => ?_
    simp only [List.map_map, List.length_map, List.length_range] at hk
    simp only [List.getElem_map, List.getElem_range, List.getElem_take]
    exact (hin k hk).trans (List.getElem?_eq_getElem (by omega))

/-- Steps 1 and 2 of `ENQ` from a state that meets the invariant. -/
theorem fillBuffer_of_inv (h : s.Inv) (data : List Byte) :
    ∃ m, fillBuffer data (s.setRidx s.widx) = .ok (s.queued data m, data.drop (queuedCount data s)) ∧
      (s.queued data m).Inv ∧
      (s.queued data m).pendingCells = s.pendingCells ++ (data.take (queuedCount data s)).map some := by
  obtain ⟨hidx, ⟨hwf, hbel⟩, hwr, hflt, -⟩ := h
  obtain ⟨m, hm, hin, hout, hmwf, hmbel⟩ := fillBuffer_spec data (s.setRidx s.widx) hidx.2.2
  have hcells := State.queued_pendingCells hidx hin hout
  have hpend := State.queued_pend hidx data m
  have hle : zext (s.queued data m).pend ≤ s.cap := by
    have := hidx.2.2
    rw [hpend]; simp only [queuedCount]; omega
  refine ⟨m, hm, ⟨⟨hidx.2.1, hidx.2.1, hle⟩, ⟨hmwf hwf, hmbel hbel⟩, State.writtenInv_iff.2 ⟨?_, ?_⟩, hflt, ?_⟩,
    hcells⟩
  · rw [hcells]
    intro c hc
    rcases List.mem_append.1 hc with hc | hc
    · exact (State.writtenInv_iff.1 hwr).1 c hc
    · obtain ⟨b, -, rfl⟩ := List.mem_map.1 hc
      rfl
  · simp [State.queued_unreadCells]
  · show zext (s.queued data m).pend + (s.queued data m).unreadCount ≤ s.cap
    rw [State.queued_unreadCount]; exact hle

/-- The guard of step 3 of `ENQ`, once the bytes that fit are queued, is the one the statements name. -/
theorem State.queued_startsTransfer (h : s.indexInv) (data : List Byte) (m : List Host.Cell) :
    startsTransfer (s.queued data m) = true ↔ enqStarts data s := by
  simp only [startsTransfer, decide_eq_true_eq, State.queued_pend h]
  rfl

/-- All that `ENQ` can do in a state that meets the invariant: queue and start nothing, queue and send the oldest byte, or
collide. -/
theorem enqueue_of_inv (h : s.Inv) (data : List Byte) :
    ∃ m r, (s.queued data m).Inv ∧
      (s.queued data m).pendingCells = s.pendingCells ++ (data.take (queuedCount data s)).map some ∧
      ((¬ enqStarts data s ∧ enqueue data s = .ok ((s.queued data m).respond r)) ∨
       (enqStarts data s ∧ s.busy = false ∧
        ∃ b, enqueue data s = .ok (((((s.queued data m).setBusy true).logTx b).setState stSending).respond r)) ∨
       (enqStarts data s ∧ s.busy = true ∧ ∃ info, enqueue data s = .error (.raised .writeCollision info))) := by
  obtain ⟨m, hm, hinv, hcells⟩ := fillBuffer_of_inv h data
  have hstart := State.queued_startsTransfer h.1 data m
  refine ⟨m, [countByte (data.drop (queuedCount data s)).length], hinv, hcells, ?_⟩
  unfold enqueue
  rw [hm]
  by_cases hs : enqStarts data s
  · obtain ⟨b, hb⟩ := State.oldest_isSome hinv (by rw [State.queued_pend h.1]; exact hs.2)
    cases hbusy : s.busy with
    | false =>
      refine .inr (.inl ⟨hs, rfl, b, ?_⟩)
      simp only [startTransfer_eq_ok.2 (.inr ⟨hstart.2 hs, b, hinv.1.2.1, hb, hbusy, rfl⟩)]
    | true =>
      refine .inr (.inr ⟨hs, rfl, infoOfByte b, ?_⟩)
      have hread := memRead_eq_ok.2 ⟨hinv.1.2.1, hb⟩
      have hcoll : dataRegWrite (s.queued data m) b = _ := dataRegWrite_busy hbusy
      simp only [startTransfer, if_pos (hstart.2 hs), sendOldest, hread, hcoll]
  · refine .inl ⟨hs, ?_⟩
    simp only [startTransfer_eq_ok.2 (.inl ⟨by simpa using mt hstart.1 hs, rfl⟩)]

end Sys2Proof.Machine

/-! ## What `DONE` does to a state that meets the invariant -/

namespace Sys2Proof.Machine

variable {s : State}

/-- The state in which `DONE rx` has stored its byte and moved `WIDX` and `PEND` on (43_completion.md R63, steps 2 and 3). -/
def State.received (s : State) (rx : Byte) : State :=
  (((s.setBusy false).setBuf (Memory.write s.buf (zext s.widx) rx)).setWidx
    (toReg (nextIndex s.cap (zext s.widx)))).setPend (toReg (zext s.pend - 1))

theorem State.received_cell (rx : Byte) (i : Nat) :
    (s.received rx).cell i = if i = zext s.widx then some rx else s.cell i :=
  State.cell_setBuf_write s _ i rx

@[simp] theorem State.received_cap (rx : Byte) : (s.received rx).cap = s.cap := rfl

@[simp] theorem State.received_ridx (rx : Byte) : (s.received rx).ridx = s.ridx := rfl

@[simp] theorem State.received_widx (rx : Byte) : zext (s.received rx).widx = (zext s.widx + 1) % s.cap :=
  zext_toReg_nextIndex s _

@[simp] theorem State.received_pend (rx : Byte) : zext (s.received rx).pend = zext s.pend - 1 :=
  zext_toReg (by have := zext_le s.pend; omega)

theorem State.received_indexInv (h : s.indexInv) (rx : Byte) : (s.received rx).indexInv := by
  obtain ⟨hr, -, hp⟩ := h
  refine ⟨hr, ?_, ?_⟩
  · rw [State.received_widx]; exact mod_cap_lt s _
  · rw [State.received_pend, State.received_cap]; omega

/-- The received byte lengthens the read window by one; the one that fills the ring empties it (70_reset_and_hazards.md
R91). -/
theorem State.received_unreadCount (h : s.indexInv) (rx : Byte) :
    (s.received rx).unreadCount = if s.unreadCount + 1 = s.cap then 0 else s.unreadCount + 1 := by
  have hend : s.readCell (s.unreadCount + 1) = zext (s.received rx).widx := by
    rw [State.received_widx, ← State.pendingCell_eq_readCell h]
  refine State.unreadCount_eq (State.received_indexInv h rx) ?_ ?_
  · have := s.unreadCount_lt
    have := s.cap_pos
    rw [State.received_cap]
    split <;> omega
  · rw [← hend]
    split
    case isTrue hfull =>
      rw [hfull, State.readCell, State.readCell, Nat.add_mod_right, Nat.add_zero]
      rfl
    case isFalse => rfl

theorem State.received_pendingCells (h : s.indexInv) (rx : Byte) :
    (s.received rx).pendingCells = s.pendingCells.tail := by
  obtain ⟨-, hw, hp⟩ := h
  rw [State.pendingCells, State.pendingCells, State.received_pend, State.received_widx, State.received_cap,
    ← List.map_tail, List.tail_range, List.range'_eq_map_range, List.map_map]
  refine List.map_congr_left fun k hk => ?_
  have hk := List.mem_range.1 hk
  have hne : (zext s.widx + (1 + k)) % s.cap ≠ zext s.widx := by
    conv_rhs => rw [← Nat.mod_eq_of_lt hw, ← Nat.add_zero (zext s.widx)]
    exact ring_ne (by omega) (by omega) (by omega)
  rw [Nat.mod_add_mod, Nat.add_assoc, State.received_cell, if_neg hne]
  rfl

theorem State.received_unreadCells (h : s.indexInv) (rx : Byte) :
    (s.received rx).unreadCells = if s.unreadCount + 1 = s.cap then [] else s.unreadCells ++ [some rx] := by
  have hlt := s.unreadCount_lt
  rw [State.unreadCells, State.received_unreadCount h]
  split
  case isTrue => rfl
  case isFalse =>
    rw [List.range_succ, List.map_append, List.map_singleton]
    congr 1
    · refine List.map_congr_left fun k hk => ?_
      have hk := List.mem_range.1 hk
      have hne : s.readCell k ≠ zext s.widx := by
        rw [← State.readCell_unreadCount h]
        exact ring_ne (by omega) hlt (by omega)
      exact (State.received_cell rx _).trans (if_neg hne)
    · exact congrArg (fun c => [c])
        ((State.received_cell rx _).trans (if_pos (State.readCell_unreadCount h)))

/-- Storing the received byte keeps the invariant: the cell that leaves the pending region is written, and is the one that
joins the read window. -/
theorem State.Inv.received (h : s.Inv) (hp : 0 < zext s.pend) (rx : Byte) : (s.received rx).Inv := by
  obtain ⟨hidx, ⟨hwf, hbel⟩, hwr, hflt, hreg⟩ := h
  obtain ⟨hpw, huw⟩ := State.writtenInv_iff.1 hwr
  refine ⟨State.received_indexInv hidx rx, ⟨Memory.wf_write _ _ hwf, Memory.below_write hidx.2.1 hbel⟩,
    State.writtenInv_iff.2 ⟨?_, ?_⟩, hflt, ?_⟩
  · rw [State.received_pendingCells hidx]
    exact fun c hc => hpw c (List.mem_of_mem_tail hc)
  · rw [State.received_unreadCells hidx]
    split
    case isTrue => exact fun c hc => absurd hc List.not_mem_nil
    case isFalse =>
      intro c hc
      rcases List.mem_append.1 hc with hc | hc
      · exact huw c hc
      · rw [List.mem_singleton.1 hc]; rfl
  · have hreg : zext s.pend + s.unreadCount ≤ s.cap := hreg
    have hcount := State.received_unreadCount hidx rx
    show zext (s.received rx).pend + (s.received rx).unreadCount ≤ s.cap
    rw [State.received_pend, hcount]
    split <;> omega

/-- All that `DONE` can do in a state that meets the invariant: raise, send the next byte, or finish. -/
theorem complete_of_inv (h : s.Inv) (rx : Byte) :
    (zext s.pend = 0 ∧ complete rx s = .error (.raised .spuriousCompletion (infoOfByte rx))) ∨
    (0 < zext s.pend ∧ (s.received rx).Inv ∧
      ((0 < zext (s.received rx).pend ∧ ∃ b, (s.received rx).cell (zext (s.received rx).widx) = some b ∧
          complete rx s = .ok (((s.received rx).setBusy true).logTx b)) ∨
       (zext (s.received rx).pend = 0 ∧ complete rx s = .ok ((s.received rx).setState stComplete)))) := by
  unfold complete
  split
  case isTrue hp => exact .inl ⟨hp, rfl⟩
  case isFalse hp =>
    have hinv := h.received (Nat.pos_of_ne_zero hp) rx
    refine .inr ⟨Nat.pos_of_ne_zero hp, hinv, ?_⟩
    have hw : memWrite (s.setBusy false) (zext s.widx) rx = _ := memWrite_eq_ok.2 ⟨h.1.2.1, rfl⟩
    rw [hw]
    show (_ ∧ ∃ b, _ ∧ continueOrFinish (s.received rx) = _) ∨ (_ ∧ continueOrFinish (s.received rx) = _)
    unfold continueOrFinish
    split
    case isTrue hp' =>
      obtain ⟨b, hb⟩ := State.oldest_isSome hinv hp'
      exact .inl ⟨hp', b, hb, sendOldest_eq_ok.2 ⟨b, hinv.1.2.1, hb, rfl, rfl⟩⟩
    case isFalse hp' => exact .inr ⟨Nat.eq_zero_of_not_pos hp', rfl⟩

/-! ## What `READ` does to a state that meets the invariant -/

/-- The state in which `READ` has moved `RIDX` on by `j` cells (44_readout_status.md R66). -/
def State.readOn (s : State) (j : Nat) : State := s.setRidx (toReg (s.readCell j))

@[simp] theorem State.readOn_ridx (j : Nat) : zext (s.readOn j).ridx = s.readCell j :=
  zext_toReg (by have : s.readCell j < s.cap := mod_cap_lt s _; have := s.cap_le; omega)

theorem State.readOn_indexInv (h : s.indexInv) (j : Nat) : (s.readOn j).indexInv :=
  ⟨by rw [State.readOn_ridx]; exact mod_cap_lt s _, h.2⟩

theorem State.readOn_readCell (j k : Nat) : (s.readOn j).readCell k = s.readCell (j + k) := by
  rw [State.readCell, State.readOn_ridx]
  exact (Nat.mod_add_mod _ _ _).trans (by rw [Nat.add_assoc])

theorem State.readOn_unreadCount (h : s.indexInv) {j : Nat} (hj : j ≤ s.unreadCount) :
    (s.readOn j).unreadCount = s.unreadCount - j := by
  have hlt := s.unreadCount_lt
  refine State.unreadCount_eq (State.readOn_indexInv h j) (show _ < s.cap by omega) ?_
  rw [State.readOn_readCell, Nat.add_sub_cancel' hj]
  exact State.readCell_unreadCount h

theorem State.readOn_unreadCells (h : s.indexInv) {j : Nat} (hj : j ≤ s.unreadCount) :
    (s.readOn j).unreadCells = s.unreadCells.drop j := by
  rw [State.unreadCells, State.unreadCells, State.readOn_unreadCount h hj, ← List.map_drop,
    List.range_eq_range' (n := s.unreadCount), List.drop_range', Nat.mul_one, Nat.zero_add,
    List.range'_eq_map_range, List.map_map]
  exact List.map_congr_left fun k _ => congrArg s.cell (State.readOn_readCell j k)

theorem State.Inv.readOn (h : s.Inv) {j : Nat} (hj : j ≤ s.unreadCount) : (s.readOn j).Inv := by
  obtain ⟨hidx, hbuf, ⟨hpw, huw⟩, hflt, hreg⟩ := h
  have hcount := State.readOn_unreadCount hidx hj
  refine ⟨State.readOn_indexInv hidx j, hbuf, ⟨hpw, fun k hk => ?_⟩, hflt, ?_⟩
  · have hcell := huw (j + k) (by omega)
    rwa [← State.readCell, ← State.readOn_readCell] at hcell
  · have hreg : zext s.pend + s.unreadCount ≤ s.cap := hreg
    show zext s.pend + (s.readOn j).unreadCount ≤ s.cap
    omega

/-- All that `READ` can do in a state that meets the invariant. -/
theorem readOut_of_inv (h : s.Inv) (m : Byte) :
    (s.state = stComplete ∧ ∃ out : List Byte, out.map some = s.unreadCells.take (zext m) ∧
      readOut m s = .ok ((s.readOn (min (zext m) s.unreadCount)).respond (countByte out.length :: out))) ∨
    (s.state ≠ stComplete ∧ readOut m s = .ok (s.respond [countByte 0])) := by
  unfold readOut
  split
  case isTrue hst =>
    obtain ⟨hidx, -, ⟨-, huw⟩, -, -⟩ := h
    obtain ⟨out, hok, hout⟩ := copyOut_spec (zext m) s hidx huw
    exact .inl ⟨hst, out, hout, by rw [hok]; rfl⟩
  case isFalse hst => exact .inr ⟨hst, rfl⟩

end Sys2Proof.Machine

/-! ## Every step keeps the invariant -/

namespace Sys2Proof.Machine

variable {s t : State}

theorem exec_enq_keeps_inv {data : List Byte} (h : s.Inv) (he : exec (.enq data) s = .next t) : t.Inv := by
  obtain ⟨-, hf⟩ := exec_enq_eq_next.1 he
  obtain ⟨m, r, hinv, -, ⟨-, ho⟩ | ⟨-, -, b, ho⟩ | ⟨-, -, info, ho⟩⟩ := enqueue_of_inv h data
  all_goals rw [ho] at hf; cases hf
  · exact hinv
  · exact hinv
  · exact h.setFault (by decide) info

theorem exec_read_keeps_inv {m : Byte} (h : s.Inv) (he : exec (.read m) s = .next t) : t.Inv := by
  obtain ⟨-, hf⟩ := exec_read_eq_next.1 he
  obtain ⟨-, out, -, ho⟩ | ⟨-, ho⟩ := readOut_of_inv h m
  all_goals rw [ho] at hf; cases hf
  · exact h.readOn (Nat.min_le_right ..)
  · exact h

theorem exec_done_keeps_inv {rx : Byte} (h : s.Inv) (he : exec (.done rx) s = .next t) : t.Inv := by
  obtain ⟨-, -, hf⟩ := exec_done_eq_next.1 he
  obtain ⟨-, ho⟩ | ⟨-, hinv, ⟨-, b, -, ho⟩ | ⟨-, ho⟩⟩ := complete_of_inv h rx
  all_goals rw [ho] at hf; cases hf
  · exact h.setFault (by decide) _
  · exact hinv
  · exact hinv

/-- `INIT` leaves both regions empty (70_reset_and_hazards.md R83). -/
theorem exec_init_keeps_inv (h : s.Inv) (he : exec .init s = .next t) : t.Inv := by
  obtain ⟨-, rfl⟩ := exec_init_eq_next.1 he
  obtain ⟨-, hbuf, -, hflt, -⟩ := h
  have hun : (((((s.setState stIdle).setRidx 0#8).setWidx 0#8).setPend 0#8).respond []).unreadCount = 0 := by
    simp [State.unreadCount]
  refine ⟨⟨s.cap_pos, s.cap_pos, Nat.zero_le _⟩, hbuf,
    ⟨fun k hk => absurd hk k.not_lt_zero, fun k hk => absurd (hun ▸ hk) k.not_lt_zero⟩, hflt, ?_⟩
  rw [State.regionsInv, hun]
  exact Nat.zero_le _

theorem exec_keeps_inv {i : Instr} (h : s.Inv) (he : exec i s = .next t) : t.Inv := by
  cases i with
  | init => exact exec_init_keeps_inv h he
  | attach => rw [(exec_attach_eq_next.1 he).2]; split <;> exact h
  | release => rw [(exec_release_eq_next.1 he).2]; split <;> exact h
  | enq data => exact exec_enq_keeps_inv h he
  | read m => exact exec_read_keeps_inv h he
  | isc => rw [(exec_isc_eq_next.1 he).2]; split <;> exact h
  | poll => rw [(exec_poll_eq_next.1 he).2]; exact h
  | illegal cw => rw [(exec_illegal_eq_next.1 he).2]; exact h.setFault (by decide) cw
  | done rx => exact exec_done_keeps_inv h he
  | corrupt v =>
    obtain ⟨-, -, rfl⟩ := exec_corrupt_eq_next.1 he
    exact h

theorem step_keeps_inv (h : s.Inv) (hs : step s = .next t) : t.Inv := by
  rcases step_eq_next_cases hs with ⟨i, ts, rest, -, he⟩ | ⟨-, ts, bs, rfl⟩
  · exact exec_keeps_inv (s := s.afterTaking ts rest) h he
  · exact h

/-- Settles O36: a step keeps the invariant because every instruction does, each by what its body does to the two regions. -/
theorem everyStepKeepsTheInvariant : Obligations.EveryStepKeepsTheInvariant := by
  refine ⟨fun s j k h hj hk => ?_, fun s t h hs => step_keeps_inv h hs⟩
  obtain ⟨hidx, -, -, -, hreg⟩ := h
  exact State.regions_disjoint hidx hreg hj hk

/-! ## Clean runs (10_state.md R24) -/

theorem invalidState_eq_false_iff {v : Byte} :
    invalidState v = false ↔ v = stIdle ∨ v = stAttached ∨ v = stSending ∨ v = stComplete := by
  revert v; decide

/-- The three shapes of a clean state: a transfer running, a transfer finished, no transfer yet. -/
theorem State.clean_iff : s.Clean ↔
    (s.state = stSending ∧ s.busy = true ∧ 0 < zext s.pend) ∨
    (s.state = stComplete ∧ s.busy = false ∧ s.pend = 0#8) ∨
    ((s.state = stIdle ∨ s.state = stAttached) ∧ s.busy = false) := by
  rw [State.Clean, invalidState_eq_false_iff]
  constructor
  · rintro ⟨hval, hbusy, hsend, hcomp⟩
    have hidle : s.state ≠ stSending → s.busy = false := fun hne => by simpa [hne] using hbusy
    rcases hval with hst | hst | hst | hst
    · exact .inr (.inr ⟨.inl hst, hidle (by rw [hst]; decide)⟩)
    · exact .inr (.inr ⟨.inr hst, hidle (by rw [hst]; decide)⟩)
    · exact .inl ⟨hst, hbusy.1 hst, hsend hst⟩
    · exact .inr (.inl ⟨hst, hidle (by rw [hst]; decide), hcomp hst⟩)
  · rintro (⟨hst, hb, hp⟩ | ⟨hst, hb, hp⟩ | ⟨hst | hst, hb⟩)
    · simp [hst, hb, stSending, stComplete]; omega
    · simp [hst, hb, hp, stSending, stComplete]
    · simp [hst, hb, stIdle, stSending, stComplete]
    · simp [hst, hb, stAttached, stSending, stComplete]

/-- A clean state has no collision: where `ENQ` would start a transfer, none is in flight. -/
theorem exec_enq_keeps_clean {data : List Byte} (h : s.Inv) (hc : s.Clean) (he : exec (.enq data) s = .next t) :
    t.Clean ∧ t.fault = 0x00#8 := by
  obtain ⟨hf0, hf⟩ := exec_enq_eq_next.1 he
  obtain ⟨m, r, -, -, ho⟩ := enqueue_of_inv h data
  have hp := State.queued_pend h.1 data m
  rcases ho with ⟨hs, ho⟩ | ⟨hs, -, b, ho⟩ | ⟨⟨hs, -⟩, hb, info, -⟩
  · rw [ho] at hf; cases hf
    refine ⟨State.clean_iff.2 ?_, hf0⟩
    rcases State.clean_iff.1 hc with ⟨hst, hb, hpos⟩ | ⟨hst, hb, -⟩ | hrest
    · exact .inl ⟨hst, hb, hp ▸ Nat.add_pos_left hpos _⟩
    · have hnone := Nat.eq_zero_of_not_pos fun hpos => hs ⟨.inr hst, hpos⟩
      exact .inr (.inl ⟨hst, hb, zext_eq_zero.1 (hp.trans hnone)⟩)
    · exact .inr (.inr hrest)
  · rw [ho] at hf; cases hf
    exact ⟨State.clean_iff.2 (.inl ⟨rfl, rfl, hp ▸ hs.2⟩), hf0⟩
  · obtain ⟨-, hbusy, -⟩ := hc
    rw [hbusy.2 hb] at hs
    exact absurd hs (by decide)

/-- A clean state has no spurious completion: a transfer in flight has a byte pending. -/
theorem exec_done_keeps_clean {rx : Byte} (h : s.Inv) (hc : s.Clean) (he : exec (.done rx) s = .next t) :
    t.Clean ∧ t.fault = 0x00#8 := by
  obtain ⟨hf0, hb, hf⟩ := exec_done_eq_next.1 he
  obtain ⟨-, hbusy, hsend, -⟩ := hc
  have hst := hbusy.2 hb
  obtain ⟨hp, -⟩ | ⟨-, -, ⟨hp, b, -, ho⟩ | ⟨hp, ho⟩⟩ := complete_of_inv h rx
  · have := hsend hst
    omega
  · rw [ho] at hf; cases hf
    exact ⟨State.clean_iff.2 (.inl ⟨hst, rfl, hp⟩), hf0⟩
  · rw [ho] at hf; cases hf
    exact ⟨State.clean_iff.2 (.inr (.inl ⟨rfl, rfl, zext_eq_zero.1 hp⟩)), hf0⟩

theorem exec_read_keeps_clean {m : Byte} (h : s.Inv) (hc : s.Clean) (he : exec (.read m) s = .next t) :
    t.Clean ∧ t.fault = 0x00#8 := by
  obtain ⟨hf0, hf⟩ := exec_read_eq_next.1 he
  obtain ⟨-, out, -, ho⟩ | ⟨-, ho⟩ := readOut_of_inv h m
  all_goals rw [ho] at hf; cases hf; exact ⟨hc, hf0⟩

/-- In a clean state neither transition of `POLL` fires. -/
theorem pollState_of_clean (hc : s.Clean) : pollState s = s.state := by
  obtain ⟨hval, -, hsend, -⟩ := hc
  have hns : ¬ (s.state = stSending ∧ s.pend = 0#8) := fun ⟨hst, hp⟩ => by
    have := hsend hst
    rw [hp, zext_zero] at this
    omega
  simp [pollState, hns, hval]

/-- With no transfer in flight, Idle and Attached are clean. -/
theorem State.Clean.setState (hc : s.Clean) (hst : s.state ≠ stSending) {v : Byte}
    (hv : v = stIdle ∨ v = stAttached) : (s.setState v).Clean := by
  obtain ⟨-, hbusy, -, -⟩ := hc
  have hb : s.busy = false := by simpa [hst] using hbusy
  exact State.clean_iff.2 (.inr (.inr ⟨hv, hb⟩))

/-- A clean instruction keeps a clean state clean and records at most `ILLEGAL_COMMAND`. -/
theorem exec_keeps_clean {i : Instr} (h : s.Inv) (hc : s.Clean) (hi : cleanInstr i s = true)
    (he : exec i s = .next t) : t.Clean ∧ (t.fault = 0x00#8 ∨ t.fault = 0x01#8) := by
  cases i with
  | init =>
    obtain ⟨hf, rfl⟩ := exec_init_eq_next.1 he
    have hb : s.busy = false := by simpa [cleanInstr] using hi
    exact ⟨State.clean_iff.2 (.inr (.inr ⟨.inl rfl, hb⟩)), .inl hf⟩
  | attach =>
    obtain ⟨hf, rfl⟩ := exec_attach_eq_next.1 he
    split
    case isTrue hst => exact ⟨hc.setState (by rw [hst]; decide) (.inr rfl), .inl hf⟩
    case isFalse => exact ⟨hc, .inl hf⟩
  | release =>
    obtain ⟨hf, rfl⟩ := exec_release_eq_next.1 he
    split
    case isTrue hst => exact ⟨hc.setState (by rw [hst.1]; decide) (.inl rfl), .inl hf⟩
    case isFalse => exact ⟨hc, .inl hf⟩
  | enq data => exact (exec_enq_keeps_clean h hc he).imp_right .inl
  | read m => exact (exec_read_keeps_clean h hc he).imp_right .inl
  | isc =>
    obtain ⟨hf, rfl⟩ := exec_isc_eq_next.1 he
    split <;> exact ⟨hc, .inl hf⟩
  | poll =>
    obtain ⟨hf, rfl⟩ := exec_poll_eq_next.1 he
    rw [pollState_of_clean hc]
    exact ⟨hc, .inl hf⟩
  | illegal cw =>
    obtain ⟨-, rfl⟩ := exec_illegal_eq_next.1 he
    exact ⟨hc, .inr rfl⟩
  | done rx => exact (exec_done_keeps_clean h hc he).imp_right .inl
  | corrupt v => cases hi

/-- A step that a clean run may take runs an instruction that a clean run may take. -/
theorem cleanInstr_of_cleanStep {i : Instr} (hcs : cleanStep s = true) (hn : nextInstr s = some i)
    (ts : List Turn) (rest : List Byte) : cleanInstr i (s.afterTaking ts rest) = true := by
  rw [cleanStep, hn] at hcs
  cases i <;> exact hcs

theorem step_keeps_clean (h : s.Inv) (hc : s.Clean) (hcs : cleanStep s = true) (hs : step s = .next t) :
    t.Clean ∧ (t.fault = 0x00#8 ∨ t.fault = 0x01#8) := by
  rcases step_eq_next_cases hs with ⟨i, ts, rest, hn, he⟩ | ⟨-, ts, bs, rfl⟩
  · exact exec_keeps_clean (s := s.afterTaking ts rest) h hc (cleanInstr_of_cleanStep hcs hn ts rest) he
  · exact ⟨hc, .inl (step_eq_next.1 hs).1⟩

/-- `POLL` as the next step of a clean state leaves `STATE`. -/
theorem step_poll_keeps_state (hc : s.Clean) (hs : step s = .next t) (hn : nextInstr s = some .poll) :
    t.state = s.state := by
  rcases step_eq_next_cases hs with ⟨i, ts, rest, hn', he⟩ | ⟨hn', -⟩
  · obtain rfl : Instr.poll = i := Option.some.inj (hn.symm.trans hn')
    rw [(exec_poll_eq_next.1 he).2]
    exact pollState_of_clean (s := s.afterTaking ts rest) hc
  · rw [hn] at hn'; cases hn'

/-- Settles O35: the power-on state is one closed state. -/
theorem resetMeetsTheInvariant : Obligations.ResetMeetsTheInvariant := by
  unfold Obligations.ResetMeetsTheInvariant
  decide

/-- Settles O37: every clean instruction keeps the three shapes of a clean state. -/
theorem cleanStepsKeepCleanStates : Obligations.CleanStepsKeepCleanStates := by
  refine ⟨resetMeetsTheInvariant, fun s t h hc _ hcs hs => ?_⟩
  obtain ⟨htc, hf⟩ := step_keeps_clean h hc hcs hs
  refine ⟨step_keeps_inv h hs, htc, ?_, ?_, step_poll_keeps_state hc hs⟩
  · rcases hf with hf | hf <;> rw [hf] <;> decide
  · rcases hf with hf | hf <;> rw [hf] <;> decide

end Sys2Proof.Machine

/-! ## The writers of the indices, of `BUSY` and of the log -/

namespace Sys2Proof.Machine

variable {s t : State}

/-- `t` has the ring, the transfer and the log of `s`. -/
structure SameChannel (s t : State) : Prop where
  buf : t.buf = s.buf
  ridx : t.ridx = s.ridx
  widx : t.widx = s.widx
  pend : t.pend = s.pend
  busy : t.busy = s.busy
  txlog : t.txlog = s.txlog

theorem SameChannel.setState_respond (s : State) (v : Byte) (r : List Byte) :
    SameChannel s ((s.setState v).respond r) := ⟨rfl, rfl, rfl, rfl, rfl, rfl⟩

theorem SameChannel.respond (s : State) (r : List Byte) : SameChannel s (s.respond r) := ⟨rfl, rfl, rfl, rfl, rfl, rfl⟩

theorem SameChannel.setState (s : State) (v : Byte) : SameChannel s (s.setState v) := ⟨rfl, rfl, rfl, rfl, rfl, rfl⟩

theorem SameChannel.setFault (s : State) (c : Cause) (info : Word) : SameChannel s (s.setFault c info) :=
  ⟨rfl, rfl, rfl, rfl, rfl, rfl⟩

/-- A step's end goes through or leaves the channel. -/
theorem finish_next_cases {r : Except Stop State} (h : finish s r = .next t) : SameChannel s t ∨ r = .ok t := by
  rcases finish_eq_next.1 h with hr | ⟨c, info, -, rfl⟩
  · exact .inr hr
  · exact .inl (.setFault s c info)

/-- All that an instruction can do to the channel: nothing (a stop included), or what the body of `INIT`, `ENQ`, `READ` or
`DONE` does. -/
theorem exec_next_cases {i : Instr} (h : exec i s = .next t) :
    SameChannel s t ∨
    (i = .init ∧ t = ((((s.setState stIdle).setRidx 0#8).setWidx 0#8).setPend 0#8).respond []) ∨
    (∃ data, i = .enq data ∧ enqueue data s = .ok t) ∨
    (∃ m, i = .read m ∧ readOut m s = .ok t) ∨
    (∃ rx, i = .done rx ∧ complete rx s = .ok t) := by
  cases i with
  | init => exact .inr (.inl ⟨rfl, (exec_init_eq_next.1 h).2⟩)
  | attach =>
    rw [(exec_attach_eq_next.1 h).2]
    split
    · exact .inl (.setState_respond ..)
    · exact .inl (.respond ..)
  | release =>
    rw [(exec_release_eq_next.1 h).2]
    split
    · exact .inl (.setState_respond ..)
    · exact .inl (.respond ..)
  | enq data => exact (finish_next_cases (exec_enq_eq_next.1 h).2).imp_right fun ho => .inr (.inl ⟨data, rfl, ho⟩)
  | read m => exact (finish_next_cases (exec_read_eq_next.1 h).2).imp_right fun ho => .inr (.inr (.inl ⟨m, rfl, ho⟩))
  | isc => rw [(exec_isc_eq_next.1 h).2]; split <;> exact .inl (.respond ..)
  | poll => rw [(exec_poll_eq_next.1 h).2]; exact .inl (.setState_respond ..)
  | illegal cw => rw [(exec_illegal_eq_next.1 h).2]; exact .inl (.setFault ..)
  | done rx =>
    obtain ⟨-, -, hf⟩ := exec_done_eq_next.1 h
    exact (finish_next_cases hf).imp_right fun ho => .inr (.inr (.inr ⟨rx, rfl, ho⟩))
  | corrupt v =>
    obtain ⟨-, -, rfl⟩ := exec_corrupt_eq_next.1 h
    exact .inl (.setState ..)

theorem enqueue_indices {data : List Byte} (h : enqueue data s = .ok t) :
    t.widx = s.widx ∧ zext s.pend ≤ zext t.pend := by
  obtain ⟨m, p, u, r, rfl, hle, rfl | ⟨b, -, -, -, rfl⟩⟩ := enqueue_shape h
  · exact ⟨rfl, hle⟩
  · exact ⟨rfl, hle⟩

theorem readOut_indices {m : Byte} (h : readOut m s = .ok t) : t.widx = s.widx ∧ t.pend = s.pend := by
  obtain ⟨-, r, out, rfl⟩ | ⟨-, rfl⟩ := readOut_shape h
  · exact ⟨rfl, rfl⟩
  · exact ⟨rfl, rfl⟩

theorem complete_indices {rx : Byte} (h : complete rx s = .ok t) :
    t.ridx = s.ridx ∧ zext t.pend + 1 = zext s.pend := by
  obtain ⟨u, rfl, hp0, -, hend⟩ := complete_shape h
  have hp : zext (s.received rx).pend + 1 = zext s.pend := by
    rw [State.received_pend]
    omega
  rcases hend with ⟨-, b, -, rfl⟩ | ⟨-, rfl⟩
  · exact ⟨rfl, hp⟩
  · exact ⟨rfl, hp⟩

/-- Settles O26: only the bodies of `INIT`, `ENQ`, `READ` and `DONE` write the indices and the count, each its own. -/
theorem indexWritersAreThoseListed : Obligations.IndexWritersAreThoseListed := by
  intro i s t h
  rcases exec_next_cases h with hsame | ⟨rfl, rfl⟩ | ⟨data, rfl, ho⟩ | ⟨m, rfl, ho⟩ | ⟨rx, rfl, ho⟩
  · exact ⟨fun hr => absurd hsame.ridx hr, fun hw => absurd hsame.widx hw,
      fun hp => absurd hp (hsame.pend ▸ Nat.lt_irrefl _), fun hp => absurd hp (hsame.pend ▸ Nat.lt_irrefl _)⟩
  · exact ⟨fun _ => .inl rfl, fun _ => .inl rfl, fun _ => .inl rfl, fun hp => absurd hp (Nat.not_lt_zero _)⟩
  · obtain ⟨hw, hp⟩ := enqueue_indices ho
    exact ⟨fun _ => .inr (.inl ⟨data, rfl⟩), fun hne => absurd hw hne, fun hlt => absurd hp (Nat.not_le_of_lt hlt),
      fun _ => ⟨data, rfl⟩⟩
  · obtain ⟨hw, hp⟩ := readOut_indices ho
    exact ⟨fun _ => .inr (.inr ⟨m, rfl⟩), fun hne => absurd hw hne,
      fun hlt => absurd hlt (hp ▸ Nat.lt_irrefl _), fun hlt => absurd hlt (hp ▸ Nat.lt_irrefl _)⟩
  · obtain ⟨hr, hp⟩ := complete_indices ho
    exact ⟨fun hne => absurd hr hne, fun _ => .inr ⟨rx, rfl⟩, fun _ => .inr ⟨rx, rfl⟩, fun hlt => by omega⟩

/-- Settles O27: the log grows only where the body of `ENQ` or `DONE` sends the oldest byte. -/
theorem txlogGrowsByTheOldestUnsentByte : Obligations.TxlogGrowsByTheOldestUnsentByte := by
  intro i s t h
  rcases exec_next_cases h with hsame | ⟨-, rfl⟩ | ⟨data, rfl, ho⟩ | ⟨m, -, ho⟩ | ⟨rx, rfl, ho⟩
  · exact .inl hsame.txlog
  · exact .inl rfl
  · obtain ⟨m, p, u, r, rfl, -, rfl | ⟨b, -, -, hb, rfl⟩⟩ := enqueue_shape ho
    · exact .inl rfl
    · exact .inr ⟨.inl ⟨data, rfl⟩, rfl, b, hb, rfl⟩
  · obtain ⟨-, r, out, rfl⟩ | ⟨-, rfl⟩ := readOut_shape ho
    · exact .inl rfl
    · exact .inl rfl
  · obtain ⟨u, rfl, -, -, ⟨-, b, hb, rfl⟩ | ⟨-, rfl⟩⟩ := complete_shape ho
    · exact .inr ⟨.inr ⟨rx, rfl⟩, rfl, b, hb, rfl⟩
    · exact .inl rfl

/-! ## Reset -/

/-- Settles O34: both columns, read off the power-on state and off what `INIT` answers. -/
theorem resetHoldsThePowerOnValues : Obligations.ResetHoldsThePowerOnValues := by
  refine ⟨⟨rfl, rfl, rfl, rfl, fun _ => rfl, rfl, rfl, rfl, rfl⟩, fun s hf => ?_⟩
  exact ⟨_, exec_init_eq_next.2 ⟨hf, rfl⟩, rfl, rfl, rfl, rfl, fun _ => rfl, rfl, rfl, rfl, rfl⟩

/-! ## The two byte streams -/

/-- Settles O38: whether it starts a transfer or not, an `ENQ` that goes through has the two regions of the filled buffer. -/
theorem enqAppendsBehindThePendingBytes : Obligations.EnqAppendsBehindThePendingBytes := by
  intro s data h hf hc
  obtain ⟨m, r, -, hcells, ho⟩ := enqueue_of_inv h data
  have hempty := State.queued_unreadCells (s := s) data m
  rcases ho with ⟨-, ho⟩ | ⟨-, -, b, ho⟩ | ⟨hs, hb, -⟩
  · exact ⟨_, exec_enq_eq_next.2 ⟨hf, finish_eq_next.2 (.inl ho)⟩, hcells, hempty⟩
  · exact ⟨_, exec_enq_eq_next.2 ⟨hf, finish_eq_next.2 (.inl ho)⟩, hcells, hempty⟩
  · exact absurd ⟨hs, hb⟩ hc

/-- `t` is `s` after the completion of a byte with bytes pending: `rx` moved into the read window, the oldest byte still
pending sent or, with none, the transfer finished. -/
structure CompletedByte (s : State) (rx : Byte) (t : State) : Prop where
  inv : t.Inv
  cfg : t.cfg = s.cfg
  fault : t.fault = s.fault
  responses : t.responses = s.responses
  pend : zext t.pend = zext s.pend - 1
  pendingCells : t.pendingCells = s.pendingCells.tail
  unreadCells : t.unreadCells = if s.unreadCount + 1 = s.cap then [] else s.unreadCells ++ [some rx]
  txlog : t.txlog.map some = s.txlog.map some ++ t.pendingCells.take 1
  ending : (0 < zext t.pend ∧ t.busy = true) ∨ (zext t.pend = 0 ∧ t.busy = false ∧ t.state = stComplete)

/-- `DONE` in flight with bytes pending goes through. -/
theorem exec_done_of_inv (h : s.Inv) (hf : s.fault = 0x00#8) (hb : s.busy = true) (hp : 0 < zext s.pend) (rx : Byte) :
    ∃ t, exec (.done rx) s = .next t ∧ t.sched = s.sched ∧ CompletedByte s rx t := by
  have hidx := State.received_indexInv h.1 rx
  have hpend := State.received_pend (s := s) rx
  have hcells := State.received_pendingCells h.1 rx
  have hun := State.received_unreadCells h.1 rx
  obtain ⟨hp0, -⟩ | ⟨-, hinv, ⟨hp', b, hcell, ho⟩ | ⟨hp', ho⟩⟩ := complete_of_inv h rx
  · omega
  · have hlog : (s.txlog ++ [b]).map some = s.txlog.map some ++ (s.received rx).pendingCells.take 1 := by
      rw [State.pendingCells_eq_cons hidx hp', hcell, List.map_append]
      rfl
    exact ⟨_, exec_done_eq_next.2 ⟨hf, hb, finish_eq_next.2 (.inl ho)⟩, rfl, hinv, rfl, rfl, rfl, hpend, hcells, hun,
      hlog, .inl ⟨hp', rfl⟩⟩
  · have hlog : s.txlog.map some = s.txlog.map some ++ (s.received rx).pendingCells.take 1 := by
      rw [List.eq_nil_of_length_eq_zero (State.pendingCells_length.trans hp'), List.take_nil, List.append_nil]
    exact ⟨_, exec_done_eq_next.2 ⟨hf, hb, finish_eq_next.2 (.inl ho)⟩, rfl, hinv, rfl, rfl, rfl, hpend, hcells, hun,
      hlog, .inr ⟨hp', rfl, rfl⟩⟩

/-- Settles O39: what the completion of a byte leaves. -/
theorem doneMovesOneByteToTheReadWindow : Obligations.DoneMovesOneByteToTheReadWindow := by
  intro s rx h hf hb hp
  have hpos : 0 < zext s.pend := Nat.pos_of_ne_zero fun h0 => hp (zext_eq_zero.1 h0)
  obtain ⟨t, he, -, hc⟩ := exec_done_of_inv h hf hb hpos rx
  exact ⟨t, he, hc.pendingCells, hc.unreadCells, hc.txlog⟩

/-- `READ` in Complete answers the front of the read window and moves `RIDX` past it. -/
theorem exec_read_of_inv (h : s.Inv) (hf : s.fault = 0x00#8) (hst : s.state = stComplete) (m : Byte) :
    ∃ out : List Byte, out.map some = s.unreadCells.take (zext m) ∧ out.length = min (zext m) s.unreadCount ∧
      exec (.read m) s =
        .next ((s.readOn (min (zext m) s.unreadCount)).respond (countByte out.length :: out)) := by
  obtain ⟨-, out, hout, ho⟩ | ⟨hne, -⟩ := readOut_of_inv h m
  · refine ⟨out, hout, ?_, exec_read_eq_next.2 ⟨hf, finish_eq_next.2 (.inl ho)⟩⟩
    rw [← List.length_map (f := some), hout, List.length_take, State.unreadCells_length]
  · exact absurd hst hne

/-- Settles O40: the bytes answered and those left are the front of the window and the rest of it. -/
theorem readTakesFromTheReadWindow : Obligations.ReadTakesFromTheReadWindow := by
  intro s m h hf hst
  obtain ⟨out, hout, hlen, he⟩ := exec_read_of_inv h hf hst m
  refine ⟨_, out, he, by rw [hlen]; rfl, ?_, hlen, rfl⟩
  calc out.map some ++ (s.readOn (min (zext m) s.unreadCount)).unreadCells
      = s.unreadCells.take (zext m) ++ s.unreadCells.drop (min (zext m) s.unreadCount) := by
        rw [hout, State.readOn_unreadCells h.1 (Nat.min_le_right ..)]
    _ = s.unreadCells.take (min (zext m) s.unreadCount) ++ s.unreadCells.drop (min (zext m) s.unreadCount) := by
        rw [← State.unreadCells_length, ← List.take_eq_take_min]
    _ = s.unreadCells := List.take_append_drop ..

end Sys2Proof.Machine

/-! ## A transfer, completion by completion -/

namespace Sys2Proof.Machine

variable {s t : State}

/-- An enabled completion's turn runs it. -/
theorem step_peripheral {rx : Byte} {ts : List Turn} (hf : s.fault = 0x00#8) (hb : s.busy = true)
    (hs : s.sched = .peripheral rx :: ts) : step s = exec (.done rx) (s.afterTaking ts s.cmdIn) := by
  simp [step, hf, hs, pick, doneEnabled, hb]

/-- The turn of a completion in flight with bytes pending completes a byte. -/
theorem step_completion {rx : Byte} {ts : List Turn} (h : s.Inv) (hf : s.fault = 0x00#8) (hb : s.busy = true)
    (hp : 0 < zext s.pend) (hs : s.sched = .peripheral rx :: ts) :
    ∃ t, step s = .next t ∧ t.sched = ts ∧ CompletedByte s rx t := by
  obtain ⟨t, he, hsched, ht⟩ := exec_done_of_inv (s := s.afterTaking ts s.cmdIn) h hf hb hp rx
  exact ⟨t, (step_peripheral hf hb hs).trans he, hsched, { ht with }⟩

/-- `t` is `s` after the completions `rxs`, as many as bytes were pending: the transfer has ended, all its bytes are sent,
and the received ones stand in the read window, unless they have filled the ring. -/
structure CompletedTransfer (s : State) (rxs : List Byte) (t : State) : Prop where
  inv : t.Inv
  cfg : t.cfg = s.cfg
  fault : t.fault = s.fault
  responses : t.responses = s.responses
  state : t.state = stComplete
  pend : t.pend = 0#8
  busy : t.busy = false
  txlog : t.txlog.map some = s.txlog.map some ++ s.pendingCells.tail
  unreadCells : t.unreadCells = if s.unreadCount + rxs.length = s.cap then [] else s.unreadCells ++ rxs.map some

/-- The completion of the only byte pending ends the transfer. -/
theorem CompletedByte.toTransfer {rx : Byte} (h : CompletedByte s rx t) (hp : zext s.pend = 1) :
    CompletedTransfer s [rx] t := by
  have hp0 : zext t.pend = 0 := by rw [h.pend, hp]
  have hnil : t.pendingCells = [] := List.eq_nil_of_length_eq_zero (State.pendingCells_length.trans hp0)
  obtain ⟨hpos, -⟩ | ⟨-, hbusy, hstate⟩ := h.ending
  · omega
  · refine ⟨h.inv, h.cfg, h.fault, h.responses, hstate, zext_eq_zero.1 hp0, hbusy, ?_, h.unreadCells⟩
    rw [h.txlog, ← h.pendingCells, hnil, List.take_nil]

/-- One completion and the rest of the transfer are the transfer. -/
theorem CompletedByte.trans_transfer {u : State} {rx : Byte} {rxs : List Byte} (h : CompletedByte s rx t)
    (hs : s.regionsInv) (hlen : rxs.length + 1 = zext s.pend) (hne : rxs ≠ []) (hu : CompletedTransfer t rxs u) :
    CompletedTransfer s (rx :: rxs) u := by
  have hpos := List.length_pos_of_ne_nil hne
  have hs : zext s.pend + s.unreadCount ≤ s.cap := hs
  have hcap : t.cap = s.cap := congrArg (fun c : Config => c.cap.val) h.cfg
  have hcells : t.unreadCells = s.unreadCells ++ [some rx] := h.unreadCells.trans (if_neg (by omega))
  have hcount : t.unreadCount = s.unreadCount + 1 := by
    rw [← State.unreadCells_length, hcells, List.length_append, State.unreadCells_length]
    rfl
  refine ⟨hu.inv, hu.cfg.trans h.cfg, hu.fault.trans h.fault, hu.responses.trans h.responses, hu.state, hu.pend, hu.busy,
    ?_, ?_⟩
  · calc u.txlog.map some = s.txlog.map some ++ (t.pendingCells.take 1 ++ t.pendingCells.drop 1) := by
          rw [hu.txlog, h.txlog, List.append_assoc, List.drop_one]
      _ = s.txlog.map some ++ s.pendingCells.tail := by rw [List.take_append_drop, h.pendingCells]
  · rw [hu.unreadCells, hcount, hcap, hcells, List.length_cons, List.append_assoc, Nat.add_assoc, Nat.add_comm 1]
    rfl

/-- As many completions in a row as bytes are pending end the transfer. -/
theorem run_completions {rxs : List Byte} {ts : List Turn} (h : s.Inv) (hf : s.fault = 0x00#8) (hb : s.busy = true)
    (hne : rxs ≠ []) (hlen : rxs.length = zext s.pend) (hs : s.sched = rxs.map Turn.peripheral ++ ts) :
    ∃ t, run rxs.length s = .next t ∧ t.sched = ts ∧ CompletedTransfer s rxs t := by
  induction rxs generalizing s with
  | nil => exact absurd rfl hne
  | cons rx rxs ih =>
    have hlen : rxs.length + 1 = zext s.pend := hlen
    obtain ⟨t, hstep, hsched, ht⟩ := step_completion h hf hb (by omega) hs
    rw [List.length_cons, run_succ _ hstep]
    by_cases hrxs : rxs = []
    · subst hrxs
      exact ⟨t, rfl, hsched, ht.toTransfer hlen.symm⟩
    · have hpend := ht.pend
      obtain ⟨-, hbusy⟩ | ⟨hp0, -⟩ := ht.ending
      · obtain ⟨u, hrun, husched, hu⟩ := ih ht.inv (ht.fault.trans hf) hbusy hrxs (by omega) hsched
        exact ⟨u, hrun, husched, ht.trans_transfer h.2.2.2.2 hlen hrxs hu⟩
      · have := List.length_pos_of_ne_nil hrxs
        omega

/-- `READ 255` after the end of a transfer answers the whole read window. -/
theorem exec_read_all (h : s.Inv) (hf : s.fault = 0x00#8) (hst : s.state = stComplete) {bs : List Byte}
    (hbs : s.unreadCells = bs.map some) :
    ∃ u, exec (.read 0xFF#8) s = .next u ∧ u.responses = s.responses ++ [countByte bs.length :: bs] := by
  obtain ⟨out, hout, -, he⟩ := exec_read_of_inv h hf hst 0xFF#8
  have hle : s.unreadCells.length ≤ zext 0xFF#8 := by
    rw [State.unreadCells_length]
    exact (s.unreadCount_lt.trans_le s.cap_le).le
  rw [List.take_of_length_le hle, hbs] at hout
  obtain rfl := List.map_injective_iff.2 (Option.some_injective _) hout
  exact ⟨_, he, rfl⟩

/-- Settles O41: by induction on the completions, then `READ` of the window that they left. -/
theorem completionsFinishTheTransfer : Obligations.CompletionsFinishTheTransfer := by
  intro s rxs ts h hf hb hrw hne hlen hs
  obtain ⟨t, hrun, hsched, ht⟩ := run_completions h hf hb hne hlen hs
  refine ⟨t, hrun, ht.state, ht.pend, ht.busy, ht.fault.trans hf, hsched, ht.txlog, ?_⟩
  have h0 : s.unreadCount = 0 := (unreadCount_eq_zero h.1).2 hrw
  have hnil : s.unreadCells = [] := List.eq_nil_of_length_eq_zero (State.unreadCells_length.trans h0)
  have hcells := ht.unreadCells
  rw [h0, hnil, Nat.zero_add, List.nil_append] at hcells
  rw [← ht.responses]
  split
  case isTrue hfull =>
    rw [if_pos hfull] at hcells
    exact exec_read_all ht.inv (ht.fault.trans hf) ht.state (bs := []) hcells
  case isFalse hfit =>
    rw [if_neg hfit] at hcells
    exact exec_read_all ht.inv (ht.fault.trans hf) ht.state hcells

end Sys2Proof.Machine

/-! ## Every transfer in flight is completed (43_completion.md R64) -/

namespace Sys2Proof.Machine

variable {s t : State}

/-- No instruction but `DONE` ends a transfer in flight. -/
theorem exec_keeps_busy {i : Instr} (hi : ∀ rx, i ≠ .done rx) (hb : s.busy = true) (h : exec i s = .next t) :
    t.busy = true := by
  rcases exec_next_cases h with hsame | ⟨-, rfl⟩ | ⟨data, -, ho⟩ | ⟨m, -, ho⟩ | ⟨rx, rfl, -⟩
  · exact hsame.busy.trans hb
  · exact hb
  · obtain ⟨m, p, u, r, rfl, -, rfl | ⟨b, -, -, -, rfl⟩⟩ := enqueue_shape ho
    · exact hb
    · rfl
  · obtain ⟨-, r, out, rfl⟩ | ⟨-, rfl⟩ := readOut_shape ho
    · exact hb
    · exact hb
  · exact absurd rfl (hi rx)

theorem Run.busy_succ {r : Run} (hr : r.valid) {n : Nat} (hb : (r.state n).busy = true)
    (hd : ∀ rx, ¬ r.takesDone n rx) : (r.state (n + 1)).busy = true := by
  rcases step_eq_next_cases (hr n) with ⟨i, ts, rest, hn, he⟩ | ⟨-, ts, bs, ht⟩
  · have hi : ∀ rx, i ≠ .done rx := fun rx hi => hd rx (hn.trans (congrArg some hi))
    exact exec_keeps_busy (s := (r.before n).afterTaking ts rest) hi hb he
  · rw [ht]; exact hb

/-- A transfer in flight stays in flight as long as no `DONE` is taken. -/
theorem Run.busy_until {r : Run} (hr : r.valid) {n m : Nat} (hb : (r.state n).busy = true)
    (hd : ∀ k rx, n ≤ k → k < m → ¬ r.takesDone k rx) (hnm : n ≤ m) : (r.state m).busy = true := by
  induction m, hnm using Nat.le_induction with
  | base => exact hb
  | succ m hnm ih =>
    exact Run.busy_succ hr (ih fun k rx hk hkm => hd k rx hk (by omega)) fun rx => hd m rx hnm (Nat.lt_succ_self m)

/-- In a fair run a transfer in flight has its `DONE`: without one it would stay in flight, and `DONE` enabled, for ever. -/
theorem Run.exists_takesDone {r : Run} (hr : r.valid) (hfair : r.fair) {n : Nat} (hb : (r.state n).busy = true) :
    ∃ m, n ≤ m ∧ ∃ rx, r.takesDone m rx := by
  by_contra hnone
  have hd : ∀ k rx, n ≤ k → ¬ r.takesDone k rx := fun k rx hk h => hnone ⟨k, hk, rx, h⟩
  obtain ⟨m, rx, hnm, h⟩ := hfair n fun m hnm =>
    (Run.doneEnabled_iff hr m).2 (Run.busy_until hr hb (fun k rx hk _ => hd k rx hk) hnm)
  exact hd m rx hnm h

/-- A `DONE` leaves another state: it lowers `PEND`, or stops the block. -/
theorem Run.takesDone_changes_state {r : Run} (hr : r.valid) {n : Nat} {rx : Byte} (hd : r.takesDone n rx) :
    r.state (n + 1) ≠ r.state n := by
  intro heq
  rcases step_eq_next_cases (hr n) with ⟨i, ts, rest, hn, he⟩ | ⟨hn, -⟩
  · obtain rfl : Instr.done rx = i := Option.some.inj (hd.symm.trans hn)
    obtain ⟨-, -, hf⟩ := exec_done_eq_next.1 he
    rcases finish_eq_next.1 hf with ho | ⟨c, info, -, ht⟩
    · have hp := (complete_indices ho).2
      rw [heq] at hp
      exact absurd hp (Nat.succ_ne_self _)
    · have hrun := Run.fault_eq_zero hr (n + 1)
      rw [ht] at hrun
      exact c.code_ne_zero hrun
  · exact absurd (hd.symm.trans hn) (by simp)

/-- Settles O46: up to the first `DONE` the transfer stays in flight, and a run that stutters for ever takes none. -/
theorem fairRunCompletesEveryTransfer : Obligations.FairRunCompletesEveryTransfer := by
  constructor
  · intro r hr hfair n hb
    classical
    have hex := Run.exists_takesDone hr hfair hb
    obtain ⟨hnm, rx, hd⟩ := Nat.find_spec hex
    have hfirst : ∀ k rx, n ≤ k → k < Nat.find hex → ¬ r.takesDone k rx := fun k rx hk hlt h =>
      Nat.find_min hex hlt ⟨hk, rx, h⟩
    exact ⟨Nat.find hex, rx, hnm, hd, fun k hk hkm =>
      Run.busy_until hr hb (fun j rx hj hjk => hfirst j rx hj (by omega)) hk⟩
  · intro r n hr hb hsame hfair
    obtain ⟨m, hnm, rx, hd⟩ := Run.exists_takesDone hr hfair hb
    exact Run.takesDone_changes_state hr hd ((hsame (m + 1) (by omega)).trans (hsame m hnm).symm)

end Sys2Proof.Machine

/-! ## What no rule reads (10_state.md R19, R22) -/

namespace Sys2Proof.Machine

/-- The components that no rule reads: a log and responses from before, waiting bytes, turns to come. -/
structure Outside where
  log : List Byte
  responses : List (List Byte)
  port : List Byte
  sched : List Turn

/-- `s` with the earlier log and responses of `o` before its own, and with the port and the schedule of `o`. -/
def State.within (s : State) (o : Outside) : State :=
  { s with txlog := o.log ++ s.txlog, responses := o.responses ++ s.responses, cmdIn := o.port, sched := o.sched }

/-- `f` on the next state, if there is one. -/
def mapNext (f : State → State) : Host.Outcome State Fault Refusal → Host.Outcome State Fault Refusal
  | .next t => .next (f t)
  | .fault r => .fault r
  | .refused r => .refused r

variable (s : State) (o : Outside)

/-! What rules read is that of `s`. -/

@[simp] theorem State.within_cfg : (s.within o).cfg = s.cfg := rfl
@[simp] theorem State.within_state : (s.within o).state = s.state := rfl
@[simp] theorem State.within_ridx : (s.within o).ridx = s.ridx := rfl
@[simp] theorem State.within_widx : (s.within o).widx = s.widx := rfl
@[simp] theorem State.within_pend : (s.within o).pend = s.pend := rfl
@[simp] theorem State.within_busy : (s.within o).busy = s.busy := rfl
@[simp] theorem State.within_fault : (s.within o).fault = s.fault := rfl
@[simp] theorem State.within_cap : (s.within o).cap = s.cap := rfl
@[simp] theorem State.within_cell (i : Nat) : (s.within o).cell i = s.cell i := rfl
@[simp] theorem State.within_tailIndex : (s.within o).tailIndex = s.tailIndex := rfl

/-! The updates commute with it: the log and the responses grow at their ends. -/

@[simp] theorem State.within_setState (v : Byte) : (s.within o).setState v = (s.setState v).within o := rfl
@[simp] theorem State.within_setRidx (v : Byte) : (s.within o).setRidx v = (s.setRidx v).within o := rfl
@[simp] theorem State.within_setWidx (v : Byte) : (s.within o).setWidx v = (s.setWidx v).within o := rfl
@[simp] theorem State.within_setPend (v : Byte) : (s.within o).setPend v = (s.setPend v).within o := rfl
@[simp] theorem State.within_setBusy (v : Bool) : (s.within o).setBusy v = (s.setBusy v).within o := rfl
@[simp] theorem State.within_logTx (b : Byte) : (s.within o).logTx b = (s.logTx b).within o := by
  simp [State.within, State.logTx]
@[simp] theorem State.within_respond (r : List Byte) : (s.within o).respond r = (s.respond r).within o := by
  simp [State.within, State.respond]

/-! So do the operations and the bodies of the instructions. -/

@[simp] theorem memRead_within (i : Nat) : memRead (s.within o) i = memRead s i := rfl

@[simp] theorem memWrite_within (i : Nat) (v : Byte) :
    memWrite (s.within o) i v = (memWrite s i v).map (·.within o) := by
  by_cases hi : i < s.cap
  · rw [memWrite, memWrite, if_pos hi, if_pos (show i < (s.within o).cap from hi)]
    rfl
  · rw [memWrite, memWrite, if_neg hi, if_neg (show ¬ i < (s.within o).cap from hi)]
    rfl

@[simp] theorem dataRegWrite_within (b : Byte) :
    dataRegWrite (s.within o) b = (dataRegWrite s b).map (·.within o) := by
  simp only [dataRegWrite, State.within_busy, State.within_setBusy, State.within_logTx]
  split <;> rfl

@[simp] theorem sendOldest_within : sendOldest (s.within o) = (sendOldest s).map (·.within o) := by
  simp only [sendOldest, memRead_within, State.within_widx, dataRegWrite_within]
  split <;> rfl

@[simp] theorem continueOrFinish_within :
    continueOrFinish (s.within o) = (continueOrFinish s).map (·.within o) := by
  simp only [continueOrFinish, State.within_pend, sendOldest_within, State.within_setState]
  split <;> rfl

@[simp] theorem complete_within (rx : Byte) : complete rx (s.within o) = (complete rx s).map (·.within o) := by
  simp only [complete, State.within_pend, State.within_widx, State.within_setBusy, memWrite_within]
  split
  · rfl
  · cases memWrite (s.setBusy false) (zext s.widx) rx with
    | ok t => simp [Except.map]
    | error e => rfl

@[simp] theorem fillBuffer_within (data : List Byte) :
    fillBuffer data (s.within o) = (fillBuffer data s).map fun p => (p.1.within o, p.2) := by
  induction data generalizing s with
  | nil => rfl
  | cons b bs ih =>
    simp only [fillBuffer, State.within_pend, State.within_cap, State.within_tailIndex, memWrite_within]
    split
    · cases memWrite s s.tailIndex b with
      | ok t => exact ih (t.setPend (toReg (zext t.pend + 1)))
      | error e => rfl
    · rfl

@[simp] theorem startTransfer_within : startTransfer (s.within o) = (startTransfer s).map (·.within o) := by
  simp only [startTransfer, show startsTransfer (s.within o) = startsTransfer s from rfl, sendOldest_within]
  split
  · cases sendOldest s <;> rfl
  · rfl

@[simp] theorem enqueue_within (data : List Byte) : enqueue data (s.within o) = (enqueue data s).map (·.within o) := by
  simp only [enqueue, State.within_widx, State.within_setRidx, fillBuffer_within]
  cases fillBuffer data (s.setRidx s.widx) with
  | error e => rfl
  | ok p =>
    simp only [Except.map, startTransfer_within]
    cases startTransfer p.1 <;> simp

@[simp] theorem copyOut_within (n : Nat) :
    copyOut n (s.within o) = (copyOut n s).map fun p => (p.1.within o, p.2) := by
  induction n generalizing s with
  | zero => rfl
  | succ n ih =>
    simp only [copyOut, State.within_ridx, State.within_widx, State.within_cap, State.within_setRidx, memRead_within, ih]
    split
    · rfl
    · cases memRead s (zext s.ridx) with
      | error e => rfl
      | ok b => cases copyOut n (s.setRidx (toReg (nextIndex s.cap (zext s.ridx)))) <;> rfl

@[simp] theorem readOut_within (m : Byte) : readOut m (s.within o) = (readOut m s).map (·.within o) := by
  simp only [readOut, State.within_state, copyOut_within]
  split
  · cases copyOut (zext m) s <;> simp [Except.map]
  · simp [Except.map]

theorem finish_within (r : Except Stop State) :
    finish (s.within o) (r.map (·.within o)) = mapNext (·.within o) (finish s r) := by
  match r with
  | .ok t => rfl
  | .error (.raised c info) => rfl
  | .error (.noCell i) => rfl

theorem whileRunning_within {out out' : Host.Outcome State Fault Refusal} (h : out' = mapNext (·.within o) out) :
    whileRunning (s.within o) out' = mapNext (·.within o) (whileRunning s out) := by
  by_cases hf : s.fault = 0x00#8
  · rw [whileRunning_running hf, whileRunning_running (s := s.within o) hf, h]
  · rw [whileRunning_stopped hf, whileRunning_stopped (s := s.within o) hf]
    rfl

/-- An instruction does the same whatever stands in the components that no rule reads. -/
theorem exec_within (i : Instr) : exec i (s.within o) = mapNext (·.within o) (exec i s) := by
  cases i with
  | init => exact whileRunning_within s o (by simp [mapNext])
  | attach =>
    refine whileRunning_within s o ?_
    by_cases hst : s.state = stIdle <;> simp [mapNext, hst]
  | release =>
    refine whileRunning_within s o ?_
    by_cases hst : s.state = stComplete ∧ s.pend = 0#8 <;> simp [mapNext, hst]
  | enq data => exact whileRunning_within s o (by rw [enqueue_within, finish_within])
  | read m => exact whileRunning_within s o (by rw [readOut_within, finish_within])
  | isc =>
    refine whileRunning_within s o ?_
    by_cases hst : s.state = stComplete <;> simp [mapNext, hst]
  | poll => exact whileRunning_within s o (by simp [mapNext, show pollState (s.within o) = pollState s from rfl])
  | illegal cw => exact whileRunning_within s o rfl
  | done rx =>
    refine whileRunning_within s o ?_
    by_cases hb : s.busy = true
    · rw [if_pos hb, if_pos (show (s.within o).busy = true from hb), complete_within, finish_within]
    · rw [if_neg hb, if_neg (show ¬ (s.within o).busy = true from hb)]
      rfl
  | corrupt v =>
    refine whileRunning_within s o ?_
    by_cases ha : s.cfg.allowCorruption = true <;> simp [mapNext, ha]

/-- `s` with nothing in the components that no rule reads. -/
def State.bare (s : State) : State := { s with txlog := [], responses := [], cmdIn := [], sched := [] }

/-- Settles O28: both runs are the run from the bare state, each with its own surroundings. -/
theorem instructionsReadNeitherLogNorPorts : Obligations.InstructionsReadNeitherLogNorPorts := by
  intro i s log port rs ts
  have hs : s = s.bare.within ⟨s.txlog, s.responses, s.cmdIn, s.sched⟩ := by simp [State.bare, State.within]
  have hs' : { s with txlog := log, responses := rs, cmdIn := port, sched := ts } =
      s.bare.within ⟨log, rs, port, ts⟩ := by
    simp [State.bare, State.within]
  have he := exec_within s.bare ⟨s.txlog, s.responses, s.cmdIn, s.sched⟩ i
  rw [← hs] at he
  rw [hs', exec_within, he]
  cases exec i s.bare with
  | next t => simp [mapNext, State.within]
  | fault f => rfl
  | refused r => rfl

end Sys2Proof.Machine

/-! ## The memory interface and the ring's index arithmetic (20_memory.md R28, R29, R32, R35) -/

namespace Sys2Proof.Machine

/-- 20_memory.md R28: a store is seen by a read of its own cell alone. -/
theorem memRead_setBuf_write_other (s : State) {i j : Nat} (v : Byte) (h : j ≠ i) :
    memRead (s.setBuf (Memory.write s.buf i v)) j = memRead s j := by
  rw [memRead, memRead, State.cell_setBuf_write, if_neg h, State.setBuf_cap]

/-- Settles O42: what the list of written cells answers after a write, read through `MemRead`. -/
theorem cellReadsAsTheByteLastStored : Obligations.CellReadsAsTheByteLastStored := by
  refine ⟨fun s i v hi => ⟨_, memWrite_eq_ok.2 ⟨hi, rfl⟩, ?_, ?_, ?_⟩, fun s i => memRead_unwritten⟩
  · exact memRead_eq_ok.2 ⟨hi, (s.cell_setBuf_write i i v).trans (if_pos rfl)⟩
  · exact fun j => memRead_setBuf_write_other s v
  · exact Memory.wf_write i v

/-- 20_memory.md R29: "Each result fits its 8-bit register because `CAP <= 255`". -/
theorem zext_toReg_of_lt_cap {s : State} {n : Nat} (h : n < s.cap) : zext (toReg n) = n :=
  zext_toReg (h.le.trans s.cap_le)

/-- Settles O43: each result is a remainder modulo `CAP`, and the read window ends where the pending region begins. -/
theorem indexArithmeticStaysInTheRing : Obligations.IndexArithmeticStaysInTheRing := by
  intro s h
  refine ⟨fun i => ⟨nextIndex_lt s i, ?_⟩, ⟨s.tailIndex_lt, ?_⟩, ⟨s.unreadCount_lt, ?_⟩, fun hp => ?_, ?_⟩
  · exact zext_toReg_nextIndex s i
  · exact zext_toReg_of_lt_cap s.tailIndex_lt
  · exact zext_toReg_of_lt_cap s.unreadCount_lt
  · rw [State.pendingCells_eq_cons h hp, List.head?_cons]
  · exact State.readCell_unreadCount h

/-- A running block's step on a turn that picks an instruction is that instruction's meaning. -/
theorem step_of_pick {s : State} {u : Turn} {ts : List Turn} {i : Instr} {rest : List Byte} (hf : s.fault = 0x00#8)
    (hs : s.sched = u :: ts) (hp : pick u s = some (i, rest)) : step s = exec i (s.afterTaking ts rest) := by
  simp only [step, if_pos hf, hs, hp]

/-- Settles O7: the foreground's turn picks what the command port decodes to. -/
theorem stepRunsTheDecodedCommand : Obligations.StepRunsTheDecodedCommand := by
  intro s ts i rest hf hs hd
  rw [← State.afterTaking_eq]
  exact step_of_pick hf hs (pick_eq_some.2 (.inl ⟨rfl, hd⟩))

end Sys2Proof.Machine

/-! ## The decoder and the encoder (30_encoding.md R42 to R48) -/

namespace Sys2Proof

/-! ### Command words -/

/-- 30_encoding.md R43: `OP` is the high byte of `CW`. -/
@[simp] theorem commandWord_op (op arg : Byte) : (commandWord op arg).extractLsb' 8 8 = op :=
  BitVec.extractLsb'_append_eq_left

/-- 30_encoding.md R43: `ARG` is the low byte of `CW`. -/
@[simp] theorem commandWord_arg (op arg : Byte) : (commandWord op arg).extractLsb' 0 8 = arg :=
  BitVec.extractLsb'_append_eq_right

/-- A word is what its two bytes spell. -/
theorem commandWord_of_bytes (cw : Word) : commandWord (cw.extractLsb' 8 8) (cw.extractLsb' 0 8) = cw :=
  (BitVec.extractLsb'_append_extractLsb'_eq_extractLsb' rfl).trans BitVec.extractLsb'_eq_self

/-- The rows of the opcode map (30_encoding.md R44) whose operands are all in the command word, and the illegal words
(R46). The row left out is that of `ENQ`, whose word is not all of the command. -/
inductive OpcodeRow : Byte → Byte → Instr → Prop
  | init : OpcodeRow 0x01#8 0x00#8 .init
  | attach : OpcodeRow 0x02#8 0x00#8 .attach
  | release : OpcodeRow 0x03#8 0x00#8 .release
  | read (maxLen : Byte) : OpcodeRow 0x05#8 maxLen (.read maxLen)
  | isc : OpcodeRow 0x06#8 0x00#8 .isc
  | poll : OpcodeRow 0x07#8 0x00#8 .poll
  | illegal {op arg : Byte} (h : isIllegalWord op arg = true) : OpcodeRow op arg (.illegal (commandWord op arg))

/-- 30_encoding.md R46, as a proposition. -/
theorem isIllegalWord_iff {op arg : Byte} :
    isIllegalWord op arg = true ↔ op = 0x00#8 ∨ 0x08#8 ≤ op ∨
      ((op = 0x01#8 ∨ op = 0x02#8 ∨ op = 0x03#8 ∨ op = 0x06#8 ∨ op = 0x07#8) ∧ arg ≠ 0x00#8) := by
  simp [isIllegalWord, or_assoc]

/-- 30_encoding.md R47: every word but those of `ENQ` lies in the row that `decodeWord` answers. -/
theorem opcodeRow_decodeWord {op : Byte} (arg : Byte) (h : op ≠ 0x04#8) : OpcodeRow op arg (decodeWord op arg) := by
  unfold decodeWord
  split
  case isTrue hop => subst hop; exact .read arg
  split
  case isTrue hw => obtain ⟨rfl, rfl⟩ := hw; exact .init
  split
  case isTrue hw => obtain ⟨rfl, rfl⟩ := hw; exact .attach
  split
  case isTrue hw => obtain ⟨rfl, rfl⟩ := hw; exact .release
  split
  case isTrue hw => obtain ⟨rfl, rfl⟩ := hw; exact .isc
  split
  case isTrue hw => obtain ⟨rfl, rfl⟩ := hw; exact .poll
  case isFalse h5 h1 h2 h3 h6 h7 =>
    refine .illegal (isIllegalWord_iff.2 ?_)
    by_cases harg : arg = 0x00#8
    · simp only [harg, and_true] at h1 h2 h3 h6 h7
      bv_omega
    · bv_omega

/-- 30_encoding.md R46: no word of `ENQ` is illegal. -/
theorem isIllegalWord_enq (arg : Byte) : isIllegalWord 0x04#8 arg = false := rfl

/-- 30_encoding.md R46: no word of `READ` is illegal. -/
theorem isIllegalWord_read (maxLen : Byte) : isIllegalWord 0x05#8 maxLen = false := rfl

/-- The row of an illegal word is the illegal one alone. -/
theorem OpcodeRow.eq_illegal {op arg : Byte} {i : Instr} (h : OpcodeRow op arg i) (hill : isIllegalWord op arg = true) :
    i = .illegal (commandWord op arg) := by
  cases h with
  | illegal _ => rfl
  | read maxLen => exact absurd hill (by simp [isIllegalWord_read])
  | init | attach | release | isc | poll => exact absurd hill (by decide)

/-- 30_encoding.md R48: no row has the opcode of `ENQ`. -/
theorem OpcodeRow.op_ne {op arg : Byte} {i : Instr} (h : OpcodeRow op arg i) : op ≠ 0x04#8 := by
  cases h with
  | illegal hill => rintro rfl; exact absurd hill (by simp [isIllegalWord_enq])
  | _ => decide

/-- The row of a word is the one that `decodeWord` answers. -/
theorem OpcodeRow.decodeWord_eq {op arg : Byte} {i : Instr} (h : OpcodeRow op arg i) : decodeWord op arg = i := by
  have h4 := h.op_ne
  cases h with
  | illegal hill => exact (opcodeRow_decodeWord arg h4).eq_illegal hill
  | _ => rfl

/-- A row's instruction is well-formed, and its bytes are the row's word. -/
theorem OpcodeRow.encode_eq {op arg : Byte} {i : Instr} (h : OpcodeRow op arg i) :
    i.wellFormed = true ∧ encode i = some [op, arg] := by
  cases h with
  | illegal hill => simpa [Instr.wellFormed, encode] using hill
  | _ => exact ⟨rfl, rfl⟩

/-! ### What the decoder takes -/

/-- 30_encoding.md R48 for every word but those of `ENQ`: the command is its word. -/
theorem decode_of_op_ne {op : Byte} (h : op ≠ 0x04#8) (arg : Byte) (rest : List Byte) :
    decode (op :: arg :: rest) = .taken (decodeWord op arg) rest := if_neg h

/-- 30_encoding.md R48 for `ENQ`: "read `ARG` more". -/
theorem decode_enq (arg : Byte) (rest : List Byte) :
    decode (0x04#8 :: arg :: rest) = if arg.toNat ≤ rest.length then
      .taken (.enq (rest.take arg.toNat)) (rest.drop arg.toNat) else .partlyArrived := rfl

theorem OpcodeRow.decode_eq {op arg : Byte} {i : Instr} (h : OpcodeRow op arg i) (rest : List Byte) :
    decode (op :: arg :: rest) = .taken i rest := by
  rw [decode_of_op_ne h.op_ne, h.decodeWord_eq]

/-- The data bytes of `ENQ` are as many as `ARG` says, whatever follows them. -/
theorem decode_enq_append {data : List Byte} {arg : Byte} (h : arg.toNat = data.length) (rest : List Byte) :
    decode (0x04#8 :: arg :: (data ++ rest)) = .taken (.enq data) rest := by
  rw [decode_enq, if_pos (by simp [h]), h, List.take_left, List.drop_left]

/-- All that the decoder takes: the word of a row, or `ENQ` with its data. -/
theorem decode_eq_taken {bs rest : List Byte} {i : Instr} :
    decode bs = .taken i rest ↔
      (∃ op arg, OpcodeRow op arg i ∧ bs = op :: arg :: rest) ∨
      (∃ arg data, arg.toNat = data.length ∧ i = .enq data ∧ bs = 0x04#8 :: arg :: (data ++ rest)) := by
  constructor
  · intro h
    match bs with
    | [] | [_] => cases h
    | op :: arg :: tail =>
      by_cases h4 : op = 0x04#8
      · subst h4
        rw [decode_enq] at h
        split at h
        case isTrue hlen =>
          cases h
          exact .inr ⟨arg, tail.take arg.toNat, by simpa using hlen, rfl, by rw [List.take_append_drop]⟩
        case isFalse => cases h
      · rw [decode_of_op_ne h4] at h
        cases h
        exact .inl ⟨op, arg, opcodeRow_decodeWord arg h4, rfl⟩
  · rintro (⟨op, arg, hrow, rfl⟩ | ⟨arg, data, hlen, rfl, rfl⟩)
    · exact hrow.decode_eq rest
    · exact decode_enq_append hlen rest

/-- The bytes of a well-formed command: the word of a row, or those of `ENQ` with its data. -/
theorem encode_eq_some {i : Instr} {bs : List Byte} (hwf : i.wellFormed = true) (h : encode i = some bs) :
    (∃ op arg, OpcodeRow op arg i ∧ bs = [op, arg]) ∨
    (∃ arg data, arg.toNat = data.length ∧ i = .enq data ∧ bs = 0x04#8 :: arg :: data) := by
  cases i with
  | init => cases h; exact .inl ⟨_, _, .init, rfl⟩
  | attach => cases h; exact .inl ⟨_, _, .attach, rfl⟩
  | release => cases h; exact .inl ⟨_, _, .release, rfl⟩
  | enq data =>
    cases h
    have hlen : data.length ≤ 255 := by simpa [Instr.wellFormed] using hwf
    exact .inr ⟨_, data, Machine.zext_toReg hlen, rfl, rfl⟩
  | read maxLen => cases h; exact .inl ⟨_, _, .read maxLen, rfl⟩
  | isc => cases h; exact .inl ⟨_, _, .isc, rfl⟩
  | poll => cases h; exact .inl ⟨_, _, .poll, rfl⟩
  | illegal cw =>
    cases h
    refine .inl ⟨_, _, ?_, rfl⟩
    have hrow := OpcodeRow.illegal hwf
    rwa [commandWord_of_bytes] at hrow
  | done rx => cases h
  | corrupt v => cases h

/-- The decoder takes a well-formed command's bytes as that command, whatever follows them. -/
theorem decode_encode_append {i : Instr} {bs : List Byte} (hwf : i.wellFormed = true) (h : encode i = some bs)
    (rest : List Byte) : decode (bs ++ rest) = .taken i rest := by
  rcases encode_eq_some hwf h with ⟨op, arg, hrow, rfl⟩ | ⟨arg, data, hlen, rfl, rfl⟩
  · exact hrow.decode_eq rest
  · exact decode_enq_append hlen rest

/-- 30_encoding.md R52: the events alone have no encoding. -/
theorem encode_isSome (i : Instr) : (encode i).isSome = i.isCommand := by cases i <;> rfl

/-- What the decoder takes is well-formed, and its bytes are its encoding. -/
theorem encode_of_decode {bs rest : List Byte} {i : Instr} (h : decode bs = .taken i rest) :
    i.wellFormed = true ∧ ∃ p, encode i = some p ∧ bs = p ++ rest := by
  rcases decode_eq_taken.1 h with ⟨op, arg, hrow, rfl⟩ | ⟨arg, data, hlen, rfl, rfl⟩
  · obtain ⟨hwf, henc⟩ := hrow.encode_eq
    exact ⟨hwf, _, henc, rfl⟩
  · have harg : BitVec.ofNat 8 data.length = arg := by rw [← hlen, BitVec.ofNat_toNat, BitVec.setWidth_eq]
    have hle : arg.toNat ≤ 255 := Machine.zext_le arg
    refine ⟨by simpa [Instr.wellFormed, ← hlen] using hle, _, rfl, ?_⟩
    rw [harg]; rfl

theorem isCommand_of_decode {bs rest : List Byte} {i : Instr} (h : decode bs = .taken i rest) :
    i.isCommand = true := by
  obtain ⟨-, p, henc, -⟩ := encode_of_decode h
  rw [← encode_isSome, henc, Option.isSome_some]

/-- Settles O1: the bytes are a row's word, or those of `ENQ` with as many data bytes as `ARG` says. -/
theorem decodeOfEncodeGivesInstructionBack : Obligations.DecodeOfEncodeGivesInstructionBack :=
  ⟨fun _ _ rest hwf h => decode_encode_append hwf h rest, encode_isSome⟩

/-- Settles O2: the decoder takes a row's word, or `ENQ` with its data. -/
theorem encodeOfDecodeGivesBytesBack : Obligations.EncodeOfDecodeGivesBytesBack :=
  fun _ _ _ h => encode_of_decode h

/-- Settles O3: `ENQ` is never illegal, and every other word lies in one row, the illegal one exactly when R46 names it. -/
theorem everyWordIsOneCommandOrIllegal : Obligations.EveryWordIsOneCommandOrIllegal := by
  intro op arg rest hdata
  simp only [← isIllegalWord_iff]
  by_cases h4 : op = 0x04#8
  · subst h4
    refine ⟨_, _, (decode_enq arg rest).trans (if_pos (hdata rfl)), rfl, ?_⟩
    simp [isIllegalWord_enq]
  · have hrow := opcodeRow_decodeWord arg h4
    have hd := hrow.decode_eq rest
    refine ⟨_, _, hd, isCommand_of_decode hd, ?_⟩
    split
    case isTrue hill => exact ⟨hrow.eq_illegal hill, rfl⟩
    case isFalse hill =>
      generalize decodeWord op arg = i at hrow
      cases hrow with
      | illegal h => exact absurd h hill
      | _ => simp

/-- Settles O6: a prefix that the decoder took would, with the remaining bytes behind it, leave them as the rest, where
the whole command leaves nothing. -/
theorem properPrefixOfCommandIsNotTaken : Obligations.ProperPrefixOfCommandIsNotTaken := by
  intro i p q hwf henc hq
  match hp : decode p with
  | .partlyArrived => rfl
  | .taken j rest =>
    obtain ⟨hwfj, b, hencj, rfl⟩ := encode_of_decode hp
    have hshort : decode (b ++ (rest ++ q)) = .taken j (rest ++ q) := decode_encode_append hwfj hencj _
    have hwhole : decode (b ++ rest ++ q ++ []) = .taken i [] := decode_encode_append hwf henc []
    rw [List.append_nil, List.append_assoc, hshort, Decoded.taken.injEq, List.append_eq_nil_iff] at hwhole
    exact absurd hwhole.2.2 hq

/-- Settles O4: each word is one of a row, or is `ENQ` with its data. -/
theorem opcodeMapRowsDecode : Obligations.OpcodeMapRowsDecode :=
  ⟨OpcodeRow.init.decode_eq [], OpcodeRow.attach.decode_eq [], OpcodeRow.release.decode_eq [],
    decode_enq_append (data := []) rfl [],
    decode_enq_append (data := [0xAA#8, 0xBB#8, 0xCC#8, 0xDD#8]) rfl [],
    (OpcodeRow.read 0x0A#8).decode_eq [], OpcodeRow.isc.decode_eq [], OpcodeRow.poll.decode_eq [],
    (OpcodeRow.illegal (op := 0x00#8) (arg := 0x00#8) rfl).decode_eq [],
    (OpcodeRow.illegal (op := 0x01#8) (arg := 0x01#8) rfl).decode_eq [],
    (OpcodeRow.illegal (op := 0x07#8) (arg := 0x80#8) rfl).decode_eq [],
    (OpcodeRow.illegal (op := 0x08#8) (arg := 0x00#8) rfl).decode_eq [],
    (OpcodeRow.illegal (op := 0xFF#8) (arg := 0x00#8) rfl).decode_eq []⟩

/-- Settles O5: two bytes tell the length, and only `ENQ` waits for more. -/
theorem lengthIsToldByTheFirstTwoBytes : Obligations.LengthIsToldByTheFirstTwoBytes := by
  refine ⟨rfl, fun _ => rfl, fun op arg rest => ?_⟩
  by_cases h4 : op = 0x04#8
  · subst h4
    rw [decode_enq]
    split
    case isTrue hlen => exact ⟨by simpa using hlen, fun i rest' h => by cases h; rfl⟩
    case isFalse hlen => exact ⟨by simpa using hlen, fun i rest' h => by cases h⟩
  · rw [decode_of_op_ne h4]
    exact ⟨by simp [h4], fun i rest' h => by cases h; rw [if_neg h4, List.drop_zero]⟩

end Sys2Proof

/-! ## A step of a running block -/

namespace Sys2Proof.Machine

variable {s : State}

/-- A command put on the port leaves with its turn, and the state is the one before. -/
theorem State.withCommand_afterTaking (s : State) (bs : List Byte) :
    (s.withCommand bs).afterTaking s.sched s.cmdIn = s := rfl

/-- Settles O10: the foreground's turn decodes the command's bytes, and taking them leaves the state as it was. -/
theorem encodedCommandOnThePortRuns : Obligations.EncodedCommandOnThePortRuns := by
  intro i bs s hwf henc hf
  have hpick : pick .foreground (s.withCommand bs) = some (i, s.cmdIn) :=
    pick_eq_some.2 (.inl ⟨rfl, decode_encode_append hwf henc s.cmdIn⟩)
  rw [step_of_pick (s := s.withCommand bs) hf rfl hpick, State.withCommand_afterTaking]

/-- A running block passes over a turn that picks no instruction. -/
theorem step_of_pick_none {u : Turn} {ts : List Turn} (hf : s.fault = 0x00#8) (hs : s.sched = u :: ts)
    (hp : pick u s = none) : step s = .next (s.afterTaking ts (cmdInAfterIdle u s)) :=
  step_eq_next.2 ⟨hf, .inr (.inr ⟨u, ts, hs, hp, rfl⟩)⟩

/-- Settles O9: none of these turns picks an instruction. -/
theorem turnWithoutStepIsPassedOver : Obligations.TurnWithoutStepIsPassedOver := by
  intro s ts hf
  refine ⟨fun hs hd => ?_, fun rx hs hb => ?_, fun v hs ha => ?_, fun b hs => ?_, fun hs => ?_⟩
  · exact step_of_pick_none hf hs (by simp [pick, hd])
  · exact step_of_pick_none hf hs (by simp [pick, doneEnabled, hb])
  · exact step_of_pick_none hf hs (by simp [pick, corruptEnabled, ha])
  · exact step_of_pick_none hf hs rfl
  · exact step_eq_next.2 ⟨hf, .inl ⟨hs, rfl⟩⟩

/-- 70_reset_and_hazards.md R94: "No command blocks". -/
theorem exec_command_answers {i : Instr} (h : s.Inv) (hf : s.fault = 0x00#8) (hi : i.isCommand = true) :
    ∃ t, exec i s = .next t := by
  cases i with
  | init => exact ⟨_, exec_init_eq_next.2 ⟨hf, rfl⟩⟩
  | attach => exact ⟨_, exec_attach_eq_next.2 ⟨hf, rfl⟩⟩
  | release => exact ⟨_, exec_release_eq_next.2 ⟨hf, rfl⟩⟩
  | enq data =>
    obtain ⟨m, r, -, -, ⟨-, ho⟩ | ⟨-, -, b, ho⟩ | ⟨-, -, info, ho⟩⟩ := enqueue_of_inv h data
    all_goals exact ⟨_, exec_enq_eq_next.2 ⟨hf, by rw [ho]; rfl⟩⟩
  | read maxLen =>
    obtain ⟨-, out, -, ho⟩ | ⟨-, ho⟩ := readOut_of_inv h maxLen
    all_goals exact ⟨_, exec_read_eq_next.2 ⟨hf, by rw [ho]; rfl⟩⟩
  | isc => exact ⟨_, exec_isc_eq_next.2 ⟨hf, rfl⟩⟩
  | poll => exact ⟨_, exec_poll_eq_next.2 ⟨hf, rfl⟩⟩
  | illegal cw => exact ⟨_, exec_illegal_eq_next.2 ⟨hf, rfl⟩⟩
  | done rx => cases hi
  | corrupt v => cases hi

/-- 43_completion.md R64: an enabled completion is a step. -/
theorem exec_done_answers (h : s.Inv) (hen : doneEnabled s = true) (rx : Byte) : ∃ t, exec (.done rx) s = .next t := by
  obtain ⟨hb, hf⟩ : s.busy = true ∧ s.fault = 0x00#8 := by simpa [doneEnabled] using hen
  obtain ⟨-, ho⟩ | ⟨-, -, ⟨-, b, -, ho⟩ | ⟨-, ho⟩⟩ := complete_of_inv h rx
  all_goals exact ⟨_, exec_done_eq_next.2 ⟨hf, hb, by rw [ho]; rfl⟩⟩

/-- 40_state_machine.md R56: an enabled corruption is a step. -/
theorem exec_corrupt_answers (hen : corruptEnabled s = true) (v : Byte) : ∃ t, exec (.corrupt v) s = .next t := by
  obtain ⟨ha, hf⟩ : s.cfg.allowCorruption = true ∧ s.fault = 0x00#8 := by simpa [corruptEnabled] using hen
  exact ⟨_, exec_corrupt_eq_next.2 ⟨hf, ha, rfl⟩⟩

/-- Settles O11: what a turn picks is a command, or an event that is enabled, and each of these answers a next state. -/
theorem runningBlockAlwaysTakesItsStep : Obligations.RunningBlockAlwaysTakesItsStep := by
  intro s h hf
  match hs : s.sched with
  | [] => exact ⟨s, step_eq_next.2 ⟨hf, .inl ⟨hs, rfl⟩⟩⟩
  | u :: ts =>
    match hp : pick u s with
    | none => exact ⟨_, step_of_pick_none hf hs hp⟩
    | some (i, rest) =>
      rw [step_of_pick hf hs hp]
      rcases pick_eq_some.1 hp with ⟨-, hd⟩ | ⟨rx, -, hen, rfl, -⟩ | ⟨v, -, hen, rfl, -⟩
      · exact exec_command_answers (s := s.afterTaking ts rest) h hf (isCommand_of_decode hd)
      · exact exec_done_answers (s := s.afterTaking ts rest) h hen rx
      · exact exec_corrupt_answers (s := s.afterTaking ts rest) hen v

end Sys2Proof.Machine

/-! ## What a step does to `STATE` (40_state_machine.md R54 to R56) -/

namespace Sys2Proof.Machine

variable {s t : State}

/-! ### The steps there are, and those there are not -/

/-- Settles O8: the turn picks the event, and leaves the command port as it is. -/
theorem stepRunsTheEnabledEvent : Obligations.StepRunsTheEnabledEvent := by
  intro s ts hf
  refine ⟨fun rx hs hb => step_peripheral hf hb hs, fun v hs ha => ?_⟩
  have hen : corruptEnabled s = true := by simp [corruptEnabled, ha, hf]
  exact step_of_pick hf hs (pick_eq_some.2 (.inr (.inr ⟨v, rfl, hen, rfl, rfl⟩)))

/-- 60_exceptions.md R73: once the block has stopped, no instruction has a meaning. -/
theorem exec_of_stopped (hf : s.fault ≠ 0x00#8) (i : Instr) : exec i s = .fault (.stopped s.fault) := by
  cases i
  all_goals exact whileRunning_stopped hf _

/-- Settles O31: every meaning and `step` ask for `FAULT` first, and the two events then for what enables them. -/
theorem noStepIsAnsweredByName : Obligations.NoStepIsAnsweredByName := by
  refine ⟨fun s hf => ⟨if_neg hf, exec_of_stopped hf⟩, fun s hf => ⟨fun hb rx => ?_, fun ha v => ?_⟩⟩
  · exact (whileRunning_running hf _).trans (if_neg (by simp [hb]))
  · exact (whileRunning_running hf _).trans (if_neg (by simp [ha]))

/-! ### The table R54, cell by cell -/

/-- A meaning that has not stopped the block went through. -/
theorem finish_ok_of_running {r : Except Stop State} (h : finish s r = .next t) (hf : t.fault = 0x00#8) :
    r = .ok t := by
  rcases finish_eq_next.1 h with ho | ⟨c, info, -, rfl⟩
  · exact ho
  · exact absurd hf c.code_ne_zero

/-- 40_state_machine.md R54, the column `ENQ`: Sending where a transfer starts. -/
theorem enqueue_state {data : List Byte} (h : enqueue data s = .ok t) :
    t.state = (if (s.state = 0x01#8 ∨ s.state = 0x03#8) ∧ 0 < zext t.pend then 0x02#8 else s.state) ∧
      ∃ rem, t.responses = s.responses ++ [[rem]] := by
  unfold enqueue at h
  obtain ⟨u, left, hu⟩ := fillBuffer_ok data (s.setRidx s.widx)
  rw [hu] at h
  obtain ⟨m, p, rfl, -⟩ := fillBuffer_shape hu
  dsimp only at h
  split at h
  case h_1 v hv =>
    cases h
    rcases startTransfer_eq_ok.1 hv with ⟨hno, rfl⟩ | ⟨hstart, b, -, -, -, rfl⟩
    · exact ⟨(if_neg (of_decide_eq_false hno)).symm, _, rfl⟩
    · exact ⟨(if_pos (of_decide_eq_true hstart)).symm, _, rfl⟩
  case h_2 => cases h

/-- 40_state_machine.md R54, the column `DONE`: Complete after the last byte. -/
theorem complete_state {rx : Byte} (h : complete rx s = .ok t) :
    t.state = (if t.pend = 0#8 then 0x03#8 else s.state) ∧ t.responses = s.responses := by
  obtain ⟨u, rfl, -, -, ⟨hp, b, -, rfl⟩ | ⟨hp, rfl⟩⟩ := complete_shape h
  · exact ⟨(if_neg fun h0 => hp.ne' (zext_eq_zero.2 h0)).symm, rfl⟩
  · exact ⟨(if_pos (zext_eq_zero.1 hp)).symm, rfl⟩

theorem readOut_state {m : Byte} (h : readOut m s = .ok t) : t.state = s.state := by
  obtain ⟨-, r, out, rfl⟩ | ⟨-, rfl⟩ := readOut_shape h <;> rfl

/-- 10_state.md R12. -/
theorem invalidState_eq_true_iff {v : Byte} : invalidState v = true ↔ 0x04#8 ≤ v := decide_eq_true_iff

/-- 40_state_machine.md R54, the column `POLL`. -/
theorem pollState_eq (s : State) : pollState s =
    if s.state = 0x02#8 ∧ s.pend = 0#8 then 0x03#8 else if 0x04#8 ≤ s.state then 0x00#8 else s.state := by
  simp only [pollState, invalidState_eq_true_iff]
  rfl

/-- 40_state_machine.md R54, the columns `ATTACH` and `RELEASE`: `STATE` moves only where the lock's condition holds, and the
response tells which. -/
theorem lock_state {c : Prop} [Decidable c] {v : Byte} {r r' : List Byte}
    (h : t = if c then (s.setState v).respond r else s.respond r') :
    if c then t.state = v ∧ t.responses = s.responses ++ [r] else t.state = s.state ∧ t.responses = s.responses ++ [r'] := by
  subst h
  by_cases hc : c
  · simp [hc]
  · simp [hc]

/-- Settles O25: column by column of the table, by what each instruction's meaning leaves when it goes through. -/
theorem stateChangesByTheTable : Obligations.StateChangesByTheTable := by
  refine ⟨fun s t hs hn => ?_, fun i s t h hf => ?_⟩
  · rcases step_eq_next_cases hs with ⟨i, ts, rest, hi, -⟩ | ⟨-, ts, bs, rfl⟩
    · exact absurd (hn.symm.trans hi) (by simp)
    · exact s.afterTaking_state ts bs
  cases i with
  | init =>
    rw [(exec_init_eq_next.1 h).2]
    exact ⟨rfl, rfl⟩
  | attach => exact lock_state (exec_attach_eq_next.1 h).2
  | release => exact lock_state (exec_release_eq_next.1 h).2
  | enq data => exact enqueue_state (finish_ok_of_running (exec_enq_eq_next.1 h).2 hf)
  | read m =>
    have ho := finish_ok_of_running (exec_read_eq_next.1 h).2 hf
    refine ⟨readOut_state ho, ?_⟩
    obtain ⟨hst, r, out, rfl⟩ | ⟨hst, rfl⟩ := readOut_shape ho
    · exact (if_pos hst).mpr ⟨out, rfl⟩
    · exact (if_neg hst).mpr rfl
  | isc =>
    rw [(exec_isc_eq_next.1 h).2]
    by_cases hst : s.state = stComplete
    · rw [if_pos hst]
      exact ⟨rfl, congrArg (fun b => s.responses ++ [[b]]) (if_pos hst).symm⟩
    · rw [if_neg hst]
      exact ⟨rfl, congrArg (fun b => s.responses ++ [[b]]) (if_neg hst).symm⟩
  | poll =>
    rw [(exec_poll_eq_next.1 h).2]
    exact ⟨pollState_eq s, rfl⟩
  | illegal cw =>
    rw [(exec_illegal_eq_next.1 h).2] at hf
    exact absurd hf (Cause.code_ne_zero .illegalCommand)
  | done rx =>
    obtain ⟨-, -, hd⟩ := exec_done_eq_next.1 h
    exact complete_state (finish_ok_of_running hd hf)
  | corrupt v =>
    obtain ⟨-, -, rfl⟩ := exec_corrupt_eq_next.1 h
    exact ⟨rfl, rfl⟩

/-- The ways in which an instruction can leave `STATE`: as it was, or moved by an entry of the table. -/
inductive StateMove (s t : State) : Instr → Prop
  | same (i : Instr) (hst : t.state = s.state) : StateMove s t i
  | init (hst : t.state = stIdle) : StateMove s t .init
  | attach (hfrom : s.state = stIdle) (hst : t.state = stAttached) : StateMove s t .attach
  | release (hfrom : s.state = stComplete ∧ s.pend = 0#8) (hst : t.state = stIdle) : StateMove s t .release
  | start (data : List Byte) (hp : 0 < zext t.pend) (hst : t.state = stSending) : StateMove s t (.enq data)
  | pollComplete (hst : t.state = stComplete) : StateMove s t .poll
  | recover (hfrom : 0x04#8 ≤ s.state) (hst : t.state = stIdle) : StateMove s t .poll
  | lastByte (rx : Byte) (hst : t.state = stComplete) : StateMove s t (.done rx)
  | corrupt (v : Byte) (hst : t.state = v) : StateMove s t (.corrupt v)

/-- A meaning that stops the block leaves `STATE`, so only what goes through needs a look. -/
theorem StateMove.of_finish {i : Instr} {r : Except Stop State} (hok : r = .ok t → StateMove s t i)
    (h : finish s r = .next t) : StateMove s t i := by
  rcases finish_eq_next.1 h with ho | ⟨c, info, -, rfl⟩
  · exact hok ho
  · exact .same i rfl

/-- 40_state_machine.md R54: "No step other than those listed changes `STATE`." -/
theorem exec_stateMove {i : Instr} (h : exec i s = .next t) : StateMove s t i := by
  cases i with
  | init => exact .init (by rw [(exec_init_eq_next.1 h).2]; rfl)
  | attach =>
    obtain ⟨-, rfl⟩ := exec_attach_eq_next.1 h
    split
    case isTrue hst => exact .attach hst rfl
    case isFalse => exact .same _ rfl
  | release =>
    obtain ⟨-, rfl⟩ := exec_release_eq_next.1 h
    split
    case isTrue hst => exact .release hst rfl
    case isFalse => exact .same _ rfl
  | enq data =>
    refine .of_finish (fun ho => ?_) (exec_enq_eq_next.1 h).2
    have hst := (enqueue_state ho).1
    split at hst
    case isTrue hstart => exact .start data hstart.2 hst
    case isFalse => exact .same _ hst
  | read m => exact .of_finish (fun ho => .same _ (readOut_state ho)) (exec_read_eq_next.1 h).2
  | isc =>
    obtain ⟨-, rfl⟩ := exec_isc_eq_next.1 h
    split <;> exact .same _ rfl
  | poll =>
    obtain ⟨-, rfl⟩ := exec_poll_eq_next.1 h
    have hst := pollState_eq s
    split at hst
    · exact .pollComplete hst
    · split at hst
      case isTrue hinv => exact .recover hinv hst
      case isFalse => exact .same _ hst
  | illegal cw =>
    obtain ⟨-, rfl⟩ := exec_illegal_eq_next.1 h
    exact .same _ rfl
  | done rx =>
    obtain ⟨-, -, hd⟩ := exec_done_eq_next.1 h
    refine .of_finish (fun ho => ?_) hd
    have hst := (complete_state ho).1
    split at hst
    · exact .lastByte rx hst
    · exact .same _ hst
  | corrupt v =>
    obtain ⟨-, -, rfl⟩ := exec_corrupt_eq_next.1 h
    exact .corrupt v rfl

/-- A `STATE` that an entry of the table wrote is not another one. -/
theorem state_absurd {P : Prop} {v w : Byte} (hv : t.state = v) (hw : t.state = w) (hne : v ≠ w) : P :=
  absurd (hv.symm.trans hw) hne

/-- Settles O33: the entries of the table that lead to Idle. -/
theorem onlyTheListedStepsReachIdle : Obligations.OnlyTheListedStepsReachIdle := by
  intro i s t h hne hidle
  cases exec_stateMove h with
  | same i hst => exact absurd (hst.symm.trans hidle) hne
  | init => exact .inl rfl
  | attach hfrom => exact absurd hfrom hne
  | release hfrom => exact .inr (.inl ⟨rfl, hfrom⟩)
  | start data hp hst => exact state_absurd hst hidle (by decide)
  | pollComplete hst => exact state_absurd hst hidle (by decide)
  | recover hfrom => exact .inr (.inr (.inl ⟨rfl, hfrom⟩))
  | lastByte rx hst => exact state_absurd hst hidle (by decide)
  | corrupt v hst => exact .inr (.inr (.inr (congrArg Instr.corrupt (hst.symm.trans hidle))))

/-- Settles O17: `CORRUPT` needs its parameter and writes its operand; every other entry of the table writes one of the
four states. -/
theorem corruptWritesStateAlone : Obligations.CorruptWritesStateAlone := by
  refine ⟨fun s v hf => ⟨fun ha => exec_corrupt_eq_next.2 ⟨hf, ha, rfl⟩, fun ha t h => ?_⟩, fun i s t hi h => ?_⟩
  · obtain ⟨-, ha', -⟩ := exec_corrupt_eq_next.1 h
    simp [ha] at ha'
  · cases exec_stateMove h with
    | same i hst => exact .inl hst
    | init hst => exact .inr (.inl hst)
    | attach _ hst => exact .inr (.inr (.inl hst))
    | release _ hst => exact .inr (.inl hst)
    | start _ _ hst => exact .inr (.inr (.inr (.inl hst)))
    | pollComplete hst => exact .inr (.inr (.inr (.inr hst)))
    | recover _ hst => exact .inr (.inl hst)
    | lastByte _ hst => exact .inr (.inr (.inr (.inr hst)))
    | corrupt v => exact absurd rfl (hi v)

/-! ### `ATTACH` and `POLL` -/

/-- 30_encoding.md R44, R46: with another argument the word of an operand-less command is illegal. -/
theorem operandless_of_row {op : Byte} {i : Instr} (hrow : OpcodeRow op 0x00#8 i)
    (hop : op = 0x01#8 ∨ op = 0x02#8 ∨ op = 0x03#8 ∨ op = 0x06#8 ∨ op = 0x07#8) : operandless op i := by
  intro arg rest
  split
  case isTrue harg =>
    subst harg
    exact hrow.decode_eq rest
  case isFalse harg => exact (OpcodeRow.illegal (isIllegalWord_iff.2 (.inr (.inr ⟨hop, harg⟩)))).decode_eq rest

/-- After an `ATTACH` the channel is not Idle, whether it succeeded or not. -/
theorem exec_attach_state_ne_idle (h : exec .attach s = .next t) : t.state ≠ 0x00#8 := by
  obtain ⟨-, rfl⟩ := exec_attach_eq_next.1 h
  split
  case isTrue => exact show stAttached ≠ stIdle by decide
  case isFalse hst => exact hst

/-- An `ATTACH` whose response is success found the channel Idle. -/
theorem state_idle_of_exec_attach (h : exec .attach s = .next t) (hr : t.responses = s.responses ++ [[0x01#8]]) :
    s.state = 0x00#8 := by
  obtain ⟨-, rfl⟩ := exec_attach_eq_next.1 h
  split at hr
  case isTrue hst => exact hst
  case isFalse => simp [statusByte] at hr

/-- Instructions that take the channel to Idle from another state hold one that returns to Idle where it runs. -/
theorem execAll_returnsToIdle {is : List Instr} (hne : s.state ≠ 0x00#8) (h : execAll is s = .next t)
    (hidle : t.state = 0x00#8) :
    ∃ pre i post v, is = pre ++ i :: post ∧ execAll pre s = .next v ∧ returnsToIdle i v := by
  induction is generalizing s with
  | nil => cases h; exact absurd hidle hne
  | cons i is ih =>
    unfold execAll at h
    split at h
    case h_1 u hu =>
      by_cases hidle' : u.state = 0x00#8
      · exact ⟨[], i, is, s, rfl, rfl, onlyTheListedStepsReachIdle i s u hu hne hidle'⟩
      · obtain ⟨pre, j, post, v, rfl, hpre, hj⟩ := ih hidle' h
        exact ⟨i :: pre, j, post, v, rfl, by rw [execAll, hu]; exact hpre, hj⟩
    case h_2 => cases h
    case h_3 => cases h

/-- Settles O13: the first `ATTACH` leaves a state that is not Idle, the second finds Idle. -/
theorem attachSucceedsInIdleAlone : Obligations.AttachSucceedsInIdleAlone := by
  refine ⟨operandless_of_row .attach (by decide), fun s hf => exec_attach_eq_next.2 ⟨hf, rfl⟩,
    fun is s t u ht hall hu => ?_⟩
  exact execAll_returnsToIdle (exec_attach_state_ne_idle ht) hall (state_idle_of_exec_attach hu rfl)

/-- An instruction that leaves nothing pending found nothing pending, or left the channel Idle or Complete. -/
theorem exec_pend_eq_zero {i : Instr} (h : exec i s = .next t) (hp : t.pend = 0#8) :
    s.pend = 0#8 ∨ t.state = stIdle ∨ t.state = stComplete := by
  rcases exec_next_cases h with hsame | ⟨-, rfl⟩ | ⟨data, -, ho⟩ | ⟨m, -, ho⟩ | ⟨rx, -, ho⟩
  · exact .inl (hsame.pend.symm.trans hp)
  · exact .inr (.inl rfl)
  · have hle := (enqueue_indices ho).2
    rw [zext_eq_zero.2 hp] at hle
    exact .inl (zext_eq_zero.1 (Nat.le_zero.1 hle))
  · exact .inl ((readOut_indices ho).2.symm.trans hp)
  · exact .inr (.inr ((complete_state ho).1.trans (if_pos hp)))

/-- Settles O16: `POLL` writes `pollState`; and no entry of the table but a corruption leads to Sending with nothing
pending. -/
theorem pollRecoversInvalidStates : Obligations.PollRecoversInvalidStates := by
  refine ⟨operandless_of_row .poll (by decide), fun s hf => ?_, fun s hc hf => ?_, fun i s t h hsend hp => ?_⟩
  · exact exec_poll_eq_next.2 ⟨hf, by rw [pollState_eq]; rfl⟩
  · exact exec_poll_eq_next.2 ⟨hf, by rw [pollState_of_clean hc]; rfl⟩
  constructor
  · rcases exec_pend_eq_zero h hp with hp0 | hst | hst
    · exact hp0
    · exact state_absurd hst hsend (by decide)
    · exact state_absurd hst hsend (by decide)
  · cases exec_stateMove h with
    | same i hst => exact .inl (hst.symm.trans hsend)
    | init hst => exact state_absurd hst hsend (by decide)
    | attach _ hst => exact state_absurd hst hsend (by decide)
    | release _ hst => exact state_absurd hst hsend (by decide)
    | start _ hpos => exact absurd (zext_eq_zero.2 hp) hpos.ne'
    | pollComplete hst => exact state_absurd hst hsend (by decide)
    | recover _ hst => exact state_absurd hst hsend (by decide)
    | lastByte _ hst => exact state_absurd hst hsend (by decide)
    | corrupt v hst => exact .inr (congrArg Instr.corrupt (hst.symm.trans hsend))

/-! ### The frame of what stores to no cell -/

/-- 20_memory.md R28: only `ENQ` and `DONE` store to the buffer and write the data register. -/
theorem exec_keeps_buf_busy {i : Instr} (henq : ∀ data, i ≠ .enq data) (hdone : ∀ rx, i ≠ .done rx)
    (h : exec i s = .next t) : t.buf = s.buf ∧ t.busy = s.busy := by
  rcases exec_next_cases h with hsame | ⟨-, rfl⟩ | ⟨data, hi, -⟩ | ⟨m, -, ho⟩ | ⟨rx, hi, -⟩
  · exact ⟨hsame.buf, hsame.busy⟩
  · exact ⟨rfl, rfl⟩
  · exact absurd hi (henq data)
  · obtain ⟨-, r, out, rfl⟩ | ⟨-, rfl⟩ := readOut_shape ho <;> exact ⟨rfl, rfl⟩
  · exact absurd hi (hdone rx)

/-- No instruction touches the command port or the schedule: in its own surroundings each leaves them as given. -/
theorem exec_keeps_ports {i : Instr} (h : exec i s = .next t) : t.cmdIn = s.cmdIn ∧ t.sched = s.sched := by
  have hown := instructionsReadNeitherLogNorPorts i s s.txlog s.cmdIn s.responses s.sched
  rw [h] at hown
  have ht := Host.Outcome.next.inj hown
  exact ⟨by rw [ht], by rw [ht]⟩

/-- Of what stores to no cell, only an illegal word records a stop: `READ` finds its bytes written. -/
theorem exec_keeps_fault {i : Instr} (hinv : s.Inv) (henq : ∀ data, i ≠ .enq data) (hdone : ∀ rx, i ≠ .done rx)
    (h : exec i s = .next t) : (∃ cw, i = .illegal cw) ∨ (t.fault = s.fault ∧ t.faultInfo = s.faultInfo) := by
  cases i with
  | init => rw [(exec_init_eq_next.1 h).2]; exact .inr ⟨rfl, rfl⟩
  | attach => rw [(exec_attach_eq_next.1 h).2]; split <;> exact .inr ⟨rfl, rfl⟩
  | release => rw [(exec_release_eq_next.1 h).2]; split <;> exact .inr ⟨rfl, rfl⟩
  | enq data => exact absurd rfl (henq data)
  | read m =>
    obtain ⟨-, hf⟩ := exec_read_eq_next.1 h
    obtain ⟨-, out, -, ho⟩ | ⟨-, ho⟩ := readOut_of_inv hinv m
    all_goals rw [ho] at hf; cases hf; exact .inr ⟨rfl, rfl⟩
  | isc => rw [(exec_isc_eq_next.1 h).2]; split <;> exact .inr ⟨rfl, rfl⟩
  | poll => rw [(exec_poll_eq_next.1 h).2]; exact .inr ⟨rfl, rfl⟩
  | illegal cw => exact .inl ⟨cw, rfl⟩
  | done rx => exact absurd rfl (hdone rx)
  | corrupt v =>
    obtain ⟨-, -, rfl⟩ := exec_corrupt_eq_next.1 h
    exact .inr ⟨rfl, rfl⟩

/-- 40_state_machine.md R54: the table has no entry for `READ`, `ISC` and an illegal word. -/
theorem exec_keeps_state {i : Instr} (hi : (∃ m, i = .read m) ∨ i = .isc ∨ ∃ cw, i = .illegal cw)
    (h : exec i s = .next t) : t.state = s.state := by
  have hmove := exec_stateMove h
  rcases hi with ⟨m, rfl⟩ | rfl | ⟨cw, rfl⟩
  all_goals cases hmove; assumption

/-- Settles O24: what writes the buffer, the indices, the log, the record and `STATE` is each named once, and is none of
these instructions but where the statement says so. -/
theorem nonStoringInstructionsKeepTheBuffer : Obligations.NonStoringInstructionsKeepTheBuffer := by
  intro i s t hinv henq hdone h
  obtain ⟨hbuf, hbusy⟩ := exec_keeps_buf_busy henq hdone h
  obtain ⟨hport, hsched⟩ := exec_keeps_ports h
  obtain ⟨hr, hw, hlow, hhigh⟩ := indexWritersAreThoseListed i s t h
  have hstores : ¬ ((∃ data, i = .enq data) ∨ ∃ rx, i = .done rx) := by simp [henq, hdone]
  have hlog : t.txlog = s.txlog :=
    (txlogGrowsByTheOldestUnsentByte i s t h).resolve_right fun hgrows => hstores hgrows.1
  refine ⟨fun a => congrArg (Memory.read · a) hbuf, hbusy, hlog, exec_keeps_cfg h, hport, hsched, fun hinit => ⟨?_, ?_⟩,
    fun hinit hread => ?_, exec_keeps_fault hinv henq hdone h, fun hi => exec_keeps_state hi h⟩
  · by_contra hne
    simpa [hinit, hdone] using hw hne
  · refine zext_inj.1 (Nat.le_antisymm (Nat.le_of_not_lt fun hlt => ?_) (Nat.le_of_not_lt fun hlt => ?_))
    · simpa [henq] using hhigh hlt
    · simpa [hinit, hdone] using hlow hlt
  · by_contra hne
    simpa [hinit, henq, hread] using hr hne

/-! ### Recovery during a transfer (70_reset_and_hazards.md R92) -/

/-- `POLL` takes an invalid value to Idle. -/
theorem pollState_of_invalid (h : 0x04#8 ≤ s.state) : pollState s = stIdle := by
  have hns : ¬ (s.state = 0x02#8 ∧ s.pend = 0#8) := fun ⟨hst, _⟩ => by
    rw [hst] at h
    exact absurd h (by decide)
  rw [pollState_eq, if_neg hns, if_pos h]
  rfl

/-- `DONE` with bytes pending, whatever `STATE` is: the byte stored, and the chain continued, or Complete. -/
theorem exec_done_continues (h : s.Inv) (hf : s.fault = 0x00#8) (hb : s.busy = true) (hp : s.pend ≠ 0#8) (rx : Byte) :
    ∃ u, exec (.done rx) s = .next u ∧ u.cell (zext s.widx) = some rx ∧ zext u.pend = zext s.pend - 1 ∧
      u.busy = decide (1 < zext s.pend) ∧ u.state = if zext s.pend = 1 then 0x03#8 else s.state := by
  have hcell : (s.received rx).cell (zext s.widx) = some rx := (State.received_cell rx _).trans (if_pos rfl)
  have hpend := State.received_pend (s := s) rx
  obtain ⟨hp0, -⟩ | ⟨hpos, -, ⟨hp', b, -, ho⟩ | ⟨hp', ho⟩⟩ := complete_of_inv h rx
  · exact absurd (zext_eq_zero.1 hp0) hp
  · exact ⟨_, exec_done_eq_next.2 ⟨hf, hb, finish_eq_next.2 (.inl ho)⟩, hcell, hpend,
      (decide_eq_true (by omega)).symm, (if_neg (by omega)).symm⟩
  · exact ⟨_, exec_done_eq_next.2 ⟨hf, hb, finish_eq_next.2 (.inl ho)⟩, hcell, hpend,
      (decide_eq_false (by omega)).symm, (if_pos (by omega)).symm⟩

/-- 60_exceptions.md R74: an `ENQ` that would start a transfer while one is in flight records the collision. -/
theorem exec_enq_collides {data : List Byte} (h : s.Inv) (hf : s.fault = 0x00#8) (hc : enqCollides data s) :
    ∃ info, exec (.enq data) s = .next (s.setFault .writeCollision info) := by
  obtain ⟨hs, hb⟩ := hc
  obtain ⟨m, r, -, -, ⟨hns, -⟩ | ⟨-, hb', -⟩ | ⟨-, -, info, ho⟩⟩ := enqueue_of_inv h data
  · exact absurd hs hns
  · simp [hb] at hb'
  · exact ⟨info, exec_enq_eq_next.2 ⟨hf, by rw [ho]; rfl⟩⟩

/-- Settles O45: `POLL`, `DONE` and `ATTACH` leave the transfer in flight, so the new client's `ENQ` meets it. -/
theorem recoveryLeavesTheTransferRunning : Obligations.RecoveryLeavesTheTransferRunning := by
  intro s rx data h hf hst hb hp _
  have hpoll : exec .poll s = .next ((s.setState stIdle).respond []) :=
    exec_poll_eq_next.2 ⟨hf, by rw [pollState_of_invalid hst]⟩
  have hattach : exec .attach ((s.setState stIdle).respond []) =
      .next ((((s.setState stIdle).respond []).setState stAttached).respond [statusByte true]) :=
    exec_attach_eq_next.2 ⟨hf, rfl⟩
  have hpos : 0 < zext s.pend := Nat.pos_of_ne_zero (mt zext_eq_zero.1 hp)
  obtain ⟨info, henq⟩ := exec_enq_collides (data := data)
    (s := (((s.setState stIdle).respond []).setState stAttached).respond [statusByte true]) h hf
    ⟨⟨.inl rfl, Nat.add_pos_left hpos _⟩, hb⟩
  exact ⟨_, hpoll, rfl, exec_done_continues (s := (s.setState stIdle).respond []) h hf hb hp rx,
    _, _, hattach, rfl, henq, rfl⟩

end Sys2Proof.Machine

/-! ## `RELEASE`, and `READ` after it (41_attach_release.md R58, 70_reset_and_hazards.md R87) -/

namespace Sys2Proof.Machine

variable {s : State}

/-- Settles O14: the word is its row's, and the meaning is R58's two branches. -/
theorem releaseSucceedsInCompleteAlone : Obligations.ReleaseSucceedsInCompleteAlone :=
  ⟨operandless_of_row .release (by decide), fun _ hf => exec_release_eq_next.2 ⟨hf, rfl⟩⟩

/-- 44_readout_status.md R66: "valid only in `Complete` state; returns 0 immediately otherwise". -/
theorem exec_read_of_state_ne_complete (hf : s.fault = 0x00#8) (hst : s.state ≠ stComplete) (m : Byte) :
    exec (.read m) s = .next (s.respond [countByte 0]) :=
  exec_read_eq_next.2 ⟨hf, finish_eq_next.2 (.inl (if_neg hst))⟩

/-- Settles O44: the channel is Idle after `RELEASE`, with buffer and indices as before, so `READ` returns 0 whatever they
hold. -/
theorem readAfterReleaseReturnsNothing : Obligations.ReadAfterReleaseReturnsNothing := by
  intro s m hf hst hp
  have hrelease : exec .release s = .next ((s.setState stIdle).respond [statusByte true]) :=
    exec_release_eq_next.2 ⟨hf, (if_pos ⟨hst, hp⟩).symm⟩
  have hread := exec_read_of_state_ne_complete (s := (s.setState stIdle).respond [statusByte true]) hf
    (show stIdle ≠ stComplete by decide) m
  exact ⟨_, hrelease, rfl, rfl, hread⟩

end Sys2Proof.Machine

/-! ## `ENQ` in full (42_enqueue.md R60, R62) -/

namespace Sys2Proof.Machine

variable {s : State}

/-- All that steps 1 and 2 of `ENQ` do from a state that meets the invariant: to `fillBuffer_of_inv` it adds the cells
stored to and the cells kept. -/
theorem fillBuffer_cells_of_inv (h : s.Inv) (data : List Byte) :
    ∃ m, fillBuffer data (s.setRidx s.widx) = .ok (s.queued data m, data.drop (queuedCount data s)) ∧
      (s.queued data m).Inv ∧
      (s.queued data m).pendingCells = s.pendingCells ++ (data.take (queuedCount data s)).map some ∧
      (∀ k, k < queuedCount data s → (s.queued data m).cell (s.tailCell k) = data[k]?) ∧
      ∀ a, (∀ k, k < queuedCount data s → a ≠ s.tailCell k) → (s.queued data m).cell a = s.cell a := by
  obtain ⟨m, hm, hinv, hcells⟩ := fillBuffer_of_inv h data
  obtain ⟨m', hm', hin, hout, -⟩ := fillBuffer_spec data (s.setRidx s.widx) h.1.2.2
  have hsame : s.queued data m = s.queued data m' :=
    congrArg Prod.fst (Except.ok.inj (hm.symm.trans hm'))
  exact ⟨m, hm, hinv, hcells, hsame ▸ hin, hsame ▸ hout⟩

/-- The oldest byte once what fits is queued is the oldest of the pending bytes followed by all of `data`: a byte that did
not fit is never the oldest. -/
theorem State.queued_oldest {data : List Byte} {m : List Host.Cell} (hinv : (s.queued data m).Inv)
    (hcells : (s.queued data m).pendingCells = s.pendingCells ++ (data.take (queuedCount data s)).map some)
    (hpos : 0 < zext (s.queued data m).pend) :
    ∃ b, (s.queued data m).cell (zext s.widx) = some b ∧ (s.pendingCells ++ data.map some).head? = some (some b) := by
  obtain ⟨b, hb⟩ := State.oldest_isSome hinv hpos
  have hsplit : s.pendingCells ++ data.map some =
      (s.queued data m).pendingCells ++ (data.drop (queuedCount data s)).map some := by
    rw [hcells, List.append_assoc, ← List.map_append, List.take_append_drop]
  refine ⟨b, hb, ?_⟩
  rw [hsplit, State.pendingCells_eq_cons hinv.1 hpos, hb]
  rfl

/-- Step 3 of `ENQ` where it is due, with the oldest byte in cell `WIDX`: that byte is sent, or meets the transfer in
flight. -/
theorem startTransfer_of_oldest {u : State} {b : Byte} (hstart : startsTransfer u = true) (hw : zext u.widx < u.cap)
    (hb : u.cell (zext u.widx) = some b) :
    startTransfer u = if u.busy then .error (.raised .writeCollision (infoOfByte b))
      else .ok (((u.setBusy true).logTx b).setState stSending) := by
  rw [startTransfer, if_pos hstart, sendOldest, memRead_eq_ok.2 ⟨hw, hb⟩]
  cases hbusy : u.busy with
  | false => simp [dataRegWrite_eq_ok.2 ⟨hbusy, rfl⟩]
  | true => simp [dataRegWrite_busy hbusy]

/-- 42_enqueue.md R60, step 4: the response counts the bytes that did not fit. -/
theorem enqueue_of_startTransfer {data : List Byte} {u t : State}
    (hfill : fillBuffer data (s.setRidx s.widx) = .ok (u, data.drop (queuedCount data s)))
    (hstart : startTransfer u = .ok t) :
    enqueue data s = .ok (t.respond [countByte (data.length - queuedCount data s)]) := by
  simp only [enqueue, hfill, hstart, List.length_drop]

/-- A stop at step 3 of `ENQ` is the stop of the whole step. -/
theorem enqueue_of_startTransfer_error {data left : List Byte} {u : State} {e : Stop}
    (hfill : fillBuffer data (s.setRidx s.widx) = .ok (u, left)) (hstart : startTransfer u = .error e) :
    enqueue data s = .error e := by
  simp only [enqueue, hfill, hstart]

/-- 60_exceptions.md R74: in a clean state a transfer in flight means Sending, from where `ENQ` starts none. -/
theorem State.Clean.not_enqCollides (hc : s.Clean) (data : List Byte) : ¬ enqCollides data s := by
  rintro ⟨⟨hst, -⟩, hb⟩
  obtain ⟨-, hbusy, -⟩ := hc
  rw [hbusy.2 hb] at hst
  exact absurd hst (by decide)

/-- Settles O19: the buffer is filled as `fillBuffer_cells_of_inv` says, and then a transfer is not due, or due and started,
or due while one is in flight. -/
theorem enqAppendsAndStarts : Obligations.EnqAppendsAndStarts := by
  refine ⟨fun data rest hlen => decode_enq_append (zext_toReg hlen) rest,
    fun s data h hf _ => ⟨fun hc => hc.not_enqCollides data, ?_⟩⟩
  obtain ⟨m, hfill, hinv, hcells, hin, hout⟩ := fillBuffer_cells_of_inv h data
  have hpend := State.queued_pend h.1 data m
  have hstart := State.queued_startsTransfer h.1 data m
  by_cases hs : enqStarts data s
  · obtain ⟨b, hb, hhead⟩ := State.queued_oldest hinv hcells (hpend ▸ hs.2)
    have hsend := startTransfer_of_oldest (hstart.2 hs) hinv.1.2.1 hb
    by_cases hbusy : s.busy = true
    · rw [if_pos ⟨hs, hbusy⟩]
      have ho := enqueue_of_startTransfer_error hfill (hsend.trans (if_pos hbusy))
      exact ⟨b, hhead, exec_enq_eq_next.2 ⟨hf, finish_eq_next.2 (.inr ⟨_, _, ho, rfl⟩)⟩⟩
    · rw [if_neg fun hc => hbusy hc.2]
      have ho := enqueue_of_startTransfer hfill (hsend.trans (if_neg hbusy))
      exact ⟨_, exec_enq_eq_next.2 ⟨hf, finish_eq_next.2 (.inl ho)⟩, rfl, rfl, hpend, hin, hout,
        fun _ => ⟨rfl, rfl, b, hhead, rfl⟩, fun hn => absurd hs hn, rfl, rfl, rfl, rfl, rfl, rfl⟩
  · rw [if_neg fun hc => hs hc.1]
    have ho := enqueue_of_startTransfer hfill (startTransfer_eq_ok.2 (.inl ⟨by simpa using mt hstart.1 hs, rfl⟩))
    exact ⟨_, exec_enq_eq_next.2 ⟨hf, finish_eq_next.2 (.inl ho)⟩, rfl, rfl, hpend, hin, hout,
      fun hs' => absurd hs' hs, fun _ => ⟨rfl, rfl, rfl⟩, rfl, rfl, rfl, rfl, rfl, rfl⟩

/-- Settles O20: the counts that `enqAppendsAndStarts` gives, each of which fits in a byte. -/
theorem enqQueuesWhatFitsAndReportsTheRest : Obligations.EnqQueuesWhatFitsAndReportsTheRest := by
  intro s data h hf hlen hc
  obtain ⟨-, henq⟩ := enqAppendsAndStarts.2 s data h hf hlen
  rw [if_neg hc] at henq
  obtain ⟨t, he, -, -, hpend, -, -, -, -, hresp, -⟩ := henq
  refine ⟨t, _, he, hresp, zext_toReg ((Nat.sub_le ..).trans hlen), hpend, ?_⟩
  have hle : zext s.pend ≤ s.cap := h.1.2.2
  rw [hpend, queuedCount]
  omega

end Sys2Proof.Machine

/-! ## The completion handler (43_completion.md R63, R64) -/

namespace Sys2Proof.Machine

variable {s t : State}

/-- The cell that `WIDX` moves on to is not the one that `DONE` stores to, in a ring of two cells or more. -/
theorem State.received_cell_widx (h : s.indexInv) (hp : 1 < zext s.pend) (rx : Byte) :
    (s.received rx).cell (zext (s.received rx).widx) = s.cell ((zext s.widx + 1) % s.cap) := by
  obtain ⟨-, hw, hcap⟩ := h
  have hne : (zext s.widx + 1) % s.cap ≠ zext s.widx := by
    simpa [Nat.mod_eq_of_lt hw] using ring_ne (a := zext s.widx) (hp.trans_le hcap) s.cap_pos one_ne_zero
  rw [State.received_widx, State.received_cell, if_neg hne]

/-- 60_exceptions.md R72: a completion with nothing pending is recorded as spurious, with the byte it brought. -/
theorem exec_done_spurious (h : s.Inv) (hf : s.fault = 0x00#8) (hb : s.busy = true) (hp : s.pend = 0#8) (rx : Byte) :
    exec (.done rx) s = .next (s.setFault .spuriousCompletion (infoOfByte rx)) := by
  obtain ⟨-, ho⟩ | ⟨hpos, -⟩ := complete_of_inv h rx
  · exact exec_done_eq_next.2 ⟨hf, hb, finish_eq_next.2 (.inr ⟨_, _, ho, rfl⟩)⟩
  · exact absurd (zext_eq_zero.2 hp) hpos.ne'

/-- A transfer that `ENQ` starts has bytes pending; one it finds in flight keeps its own. -/
theorem enqueue_busy_nothing_pending {data : List Byte} (h : enqueue data s = .ok t) (hb : t.busy = true)
    (hp : t.pend = 0#8) : s.busy = true ∧ s.pend = 0#8 := by
  obtain ⟨m, p, u, r, rfl, hle, rfl | ⟨b, hstart, -, -, rfl⟩⟩ := enqueue_shape h
  · have hp0 : zext p = 0 := zext_eq_zero.2 hp
    exact ⟨hb, zext_eq_zero.1 (by omega)⟩
  · exact absurd (zext_eq_zero.2 hp) (of_decide_eq_true hstart).2.ne'

/-- After a `DONE` that goes through, the transfer goes on with bytes pending, or has ended in Complete. -/
theorem complete_ending {rx : Byte} (h : complete rx s = .ok t) :
    (0 < zext t.pend ∧ t.busy = true) ∨ (t.pend = 0#8 ∧ t.busy = false ∧ t.state = stComplete) := by
  obtain ⟨u, rfl, -, -, ⟨hpos, b, -, rfl⟩ | ⟨hp0, rfl⟩⟩ := complete_shape h
  · exact .inl ⟨hpos, rfl⟩
  · exact .inr ⟨zext_eq_zero.1 hp0, rfl, rfl⟩

/-- 70_reset_and_hazards.md R93: only `INIT` leaves a transfer in flight with nothing pending. -/
theorem exec_busy_nothing_pending {i : Instr} (h : exec i s = .next t) (hb : t.busy = true) (hp : t.pend = 0#8) :
    s.busy = true ∧ (s.pend = 0#8 ∨ i = .init) := by
  rcases exec_next_cases h with hsame | ⟨rfl, rfl⟩ | ⟨data, -, ho⟩ | ⟨m, -, ho⟩ | ⟨rx, -, ho⟩
  · exact ⟨hsame.busy.symm.trans hb, .inl (hsame.pend.symm.trans hp)⟩
  · exact ⟨hb, .inr rfl⟩
  · exact (enqueue_busy_nothing_pending ho hb hp).imp_right .inl
  · obtain ⟨-, r, out, rfl⟩ | ⟨-, rfl⟩ := readOut_shape ho
    · exact ⟨hb, .inl hp⟩
    · exact ⟨hb, .inl hp⟩
  · obtain ⟨hpos, -⟩ | ⟨-, hidle, -⟩ := complete_ending ho
    · exact absurd (zext_eq_zero.2 hp) hpos.ne'
    · exact absurd (hb.symm.trans hidle) (by decide)

/-- Settles O22: `DONE` raises, or answers `received` with the next byte sent or with the channel Complete. -/
theorem doneStoresAndContinues : Obligations.DoneStoresAndContinues := by
  refine ⟨fun s rx h hf hb => ⟨fun hp => exec_done_spurious h hf hb hp rx, fun hp => ?_⟩,
    fun i s t he hb hp => exec_busy_nothing_pending he hb hp⟩
  have hpend := State.received_pend (s := s) rx
  have hstored : (s.received rx).cell (zext s.widx) = some rx := (State.received_cell rx _).trans (if_pos rfl)
  have hothers : ∀ a, a ≠ zext s.widx → (s.received rx).cell a = s.cell a := fun a ha =>
    (State.received_cell rx a).trans (if_neg ha)
  obtain ⟨hp0, -⟩ | ⟨hpos, -, ⟨hleft, b, hb', ho⟩ | ⟨hnone, ho⟩⟩ := complete_of_inv h rx
  · exact absurd (zext_eq_zero.1 hp0) hp
  · have hsent : s.cell ((zext s.widx + 1) % s.cap) = some b :=
      (State.received_cell_widx h.1 (by omega) rx).symm.trans hb'
    exact ⟨_, exec_done_eq_next.2 ⟨hf, hb, finish_eq_next.2 (.inl ho)⟩, rfl, hpend, hstored, hothers,
      fun _ => ⟨rfl, rfl, b, hsent, rfl⟩, fun hlast => by omega, rfl, rfl, rfl, rfl, rfl, rfl, rfl⟩
  · exact ⟨_, exec_done_eq_next.2 ⟨hf, hb, finish_eq_next.2 (.inl ho)⟩, rfl, hpend, hstored, hothers,
      fun hmore => by omega, fun _ => ⟨rfl, rfl, rfl⟩, rfl, rfl, rfl, rfl, rfl, rfl, rfl⟩

/-- Settles O23: `DONE` asks for `FAULT` and `BUSY` first, and then always answers a next state. -/
theorem doneIsEnabledExactlyWhenBusy : Obligations.DoneIsEnabledExactlyWhenBusy := by
  intro s rx h
  constructor
  · rintro ⟨t, he⟩
    obtain ⟨hf, hb, -⟩ := exec_done_eq_next.1 he
    exact ⟨hb, hf⟩
  · rintro ⟨hb, hf⟩
    exact exec_done_answers h (by simp [doneEnabled, hb, hf]) rx

end Sys2Proof.Machine

/-! ## Fair runs: a transfer's end, and a run from every state (43_completion.md R64) -/

namespace Sys2Proof.Machine

variable {s : State} {r : Run} {n m : Nat}

/-- In an unbounded run no `DONE` is spurious: each lowers `PEND`, and the transfer goes on or ends in Complete. -/
theorem Run.takesDone_ending (hr : r.valid) {rx : Byte} (hd : r.takesDone n rx) :
    zext (r.state (n + 1)).pend + 1 = zext (r.state n).pend ∧
    ((0 < zext (r.state (n + 1)).pend ∧ (r.state (n + 1)).busy = true) ∨
     ((r.state (n + 1)).pend = 0#8 ∧ (r.state (n + 1)).busy = false ∧ (r.state (n + 1)).state = stComplete)) := by
  rcases step_eq_next_cases (hr n) with ⟨i, ts, rest, hn, he⟩ | ⟨hn, -⟩
  · obtain rfl : Instr.done rx = i := Option.some.inj (hd.symm.trans hn)
    obtain ⟨-, -, hfin⟩ := exec_done_eq_next.1 he
    have ho := finish_ok_of_running hfin (Run.fault_eq_zero hr (n + 1))
    exact ⟨(complete_indices ho).2, complete_ending ho⟩
  · exact absurd (hd.symm.trans hn) (by simp)

/-- Only `ENQ` raises `PEND`. -/
theorem Run.pend_succ_le (hr : r.valid) (henq : ∀ data, nextInstr (r.before n) ≠ some (.enq data)) :
    zext (r.state (n + 1)).pend ≤ zext (r.state n).pend := by
  rcases step_eq_next_cases (hr n) with ⟨i, ts, rest, hn, he⟩ | ⟨-, ts, bs, ht⟩
  · obtain ⟨-, -, -, hraises⟩ := indexWritersAreThoseListed _ _ _ he
    refine Nat.le_of_not_lt fun hlt => ?_
    obtain ⟨data, rfl⟩ := hraises hlt
    exact henq data hn
  · rw [ht]; exact le_rfl

/-- While no `ENQ` is taken `PEND` does not grow. -/
theorem Run.pend_le (hr : r.valid) (henq : ∀ k data, n ≤ k → nextInstr (r.before k) ≠ some (.enq data)) (hnm : n ≤ m) :
    zext (r.state m).pend ≤ zext (r.state n).pend := by
  induction m, hnm using Nat.le_induction with
  | base => exact le_rfl
  | succ m hnm ih => exact (Run.pend_succ_le hr fun data => henq m data hnm).trans ih

/-- Settles O47: each `DONE` lowers `PEND`, which no `ENQ` raises any more, and the one that lowers it to 0 ends the
transfer. -/
theorem fairRunFinishesTheTransfer : Obligations.FairRunFinishesTheTransfer := by
  intro r n hr hfair hb henq
  induction hp : zext (r.state n).pend using Nat.strong_induction_on generalizing n with
  | h p ih =>
    obtain ⟨m, hnm, rx, hd⟩ := Run.exists_takesDone hr hfair hb
    have hle := Run.pend_le hr henq hnm
    obtain ⟨hlow, ⟨-, hbusy⟩ | ⟨hp0, hidle, hst⟩⟩ := Run.takesDone_ending hr hd
    · obtain ⟨k, hk, hend⟩ := ih _ (by omega) (m + 1) hbusy (fun j data hj => henq j data (by omega)) rfl
      exact ⟨k, by omega, hend⟩
    · exact ⟨m + 1, by omega, hst, hp0, hidle, Run.fault_eq_zero hr _⟩

/-! ### Completions for ever -/

/-- `s` meets the invariant, has not stopped, waits for its next turn, and has bytes pending while a transfer is in
flight. -/
structure State.AwaitsTurn (s : State) : Prop where
  inv : s.Inv
  fault : s.fault = 0x00#8
  sched : s.sched = []
  pend : s.busy = true → s.pend ≠ 0#8

/-- The state after a turn of the peripheral that the outside adds; a turn without a next state leaves `s`. -/
def State.afterPeripheral (s : State) (rx : Byte) : State :=
  match step (s.feed [.peripheral rx]) with
  | .next t => t
  | .fault _ => s
  | .refused _ => s

/-- The peripheral's turn goes through, completing a byte or passed over, and the block awaits the next turn. -/
theorem State.AwaitsTurn.step_feed (h : s.AwaitsTurn) (rx : Byte) :
    ∃ t, step (s.feed [.peripheral rx]) = .next t ∧ t.AwaitsTurn := by
  obtain ⟨hinv, hf, hsched, hpend⟩ := h
  have hs : (s.feed [.peripheral rx]).sched = [.peripheral rx] := by rw [State.feed_sched, hsched]; rfl
  by_cases hb : s.busy = true
  · have hpos : 0 < zext s.pend := Nat.pos_of_ne_zero (mt zext_eq_zero.1 (hpend hb))
    obtain ⟨t, hstep, ht, hc⟩ := step_completion (s := s.feed [.peripheral rx]) hinv hf hb hpos hs
    refine ⟨t, hstep, hc.inv, hc.fault.trans hf, ht, fun hbt hp => ?_⟩
    obtain ⟨hleft, -⟩ | ⟨-, hidle, -⟩ := hc.ending
    · exact hleft.ne' (zext_eq_zero.2 hp)
    · exact absurd (hbt.symm.trans hidle) (by decide)
  · have hpick : pick (.peripheral rx) (s.feed [.peripheral rx]) = none := by simp [pick, doneEnabled, hb]
    exact ⟨_, step_of_pick_none hf hs hpick, hinv, hf, rfl, hpend⟩

theorem State.AwaitsTurn.step_eq_afterPeripheral (h : s.AwaitsTurn) (rx : Byte) :
    step (s.feed [.peripheral rx]) = .next (s.afterPeripheral rx) := by
  obtain ⟨t, hstep, -⟩ := h.step_feed rx
  rw [State.afterPeripheral, hstep]

theorem State.AwaitsTurn.afterPeripheral (h : s.AwaitsTurn) (rx : Byte) : (s.afterPeripheral rx).AwaitsTurn := by
  obtain ⟨t, hstep, ht⟩ := h.step_feed rx
  obtain rfl := Host.Outcome.next.inj ((h.step_eq_afterPeripheral rx).symm.trans hstep)
  exact ht

/-- The states from `s` on when every turn is the peripheral's, with the bytes `rxs`. -/
def peripheralStates (s : State) (rxs : Nat → Byte) : Nat → State
  | 0 => s
  | n + 1 => (peripheralStates s rxs n).afterPeripheral (rxs n)

/-- The run in which the outside adds a turn of the peripheral before each step, and nothing else. -/
def peripheralRun (s : State) (rxs : Nat → Byte) : Run where
  state := peripheralStates s rxs
  added n := [.peripheral (rxs n)]

theorem State.AwaitsTurn.peripheralStates_awaitsTurn (h : s.AwaitsTurn) (rxs : Nat → Byte) (n : Nat) :
    (peripheralStates s rxs n).AwaitsTurn := by
  induction n with
  | zero => exact h
  | succ n ih => exact ih.afterPeripheral (rxs n)

theorem State.AwaitsTurn.peripheralRun_valid (h : s.AwaitsTurn) (rxs : Nat → Byte) : (peripheralRun s rxs).valid :=
  fun n => (h.peripheralStates_awaitsTurn rxs n).step_eq_afterPeripheral (rxs n)

/-- A step of that run is a completion exactly where one is enabled, and it brings the byte of its turn. -/
theorem State.AwaitsTurn.peripheralRun_takesDone (h : s.AwaitsTurn) (rxs : Nat → Byte) (n : Nat) (rx : Byte) :
    (peripheralRun s rxs).takesDone n rx ↔ doneEnabled ((peripheralRun s rxs).state n) = true ∧ rx = rxs n := by
  have hs : ((peripheralRun s rxs).before n).sched = [.peripheral (rxs n)] :=
    congrArg (· ++ [Turn.peripheral (rxs n)]) (h.peripheralStates_awaitsTurn rxs n).sched
  have hen : doneEnabled ((peripheralRun s rxs).before n) = doneEnabled ((peripheralRun s rxs).state n) := rfl
  rw [Run.takesDone, nextInstr, hs, ← hen]
  by_cases hd : doneEnabled ((peripheralRun s rxs).before n) = true
  · simp [pick, hd, eq_comm]
  · simp [pick, hd]

theorem State.AwaitsTurn.peripheralRun_fair (h : s.AwaitsTurn) (rxs : Nat → Byte) : (peripheralRun s rxs).fair :=
  fun n hen => ⟨n, rxs n, le_rfl, (h.peripheralRun_takesDone rxs n _).2 ⟨hen n le_rfl, rfl⟩⟩

/-- Settles O48: a turn of the peripheral before each step gives such a run. -/
theorem fairRunGoesOnFromEveryState : Obligations.FairRunGoesOnFromEveryState := by
  intro s rxs hinv hf hsched hpend
  have h : s.AwaitsTurn := ⟨hinv, hf, hsched, hpend⟩
  exact ⟨peripheralRun s rxs, h.peripheralRun_valid rxs, h.peripheralRun_fair rxs, rfl,
    fun m rx hd => ((h.peripheralRun_takesDone rxs m rx).1 hd).2⟩

end Sys2Proof.Machine

/-! ## `READ` and `ISC` (44_readout_status.md R66, R67) -/

namespace Sys2Proof.Machine

variable {s t : State}

/-- Settles O21: the word is `READ`'s row whatever `ARG` is; in Complete the front of the read window is answered and `RIDX`
moves past it, outside Complete nothing is. -/
theorem readReturnsTheOldestUnread : Obligations.ReadReturnsTheOldestUnread := by
  refine ⟨fun m rest => (OpcodeRow.read m).decode_eq rest, fun s m h hf => ?_⟩
  split
  case isTrue hst =>
    obtain ⟨out, hout, hlen, he⟩ := exec_read_of_inv h hf hst m
    rw [← hlen] at he
    exact ⟨out, hlen, hout, he⟩
  case isFalse hst => exact exec_read_of_state_ne_complete hf hst m

/-- An `ISC` whose response is `[01]` found the channel Complete, and changed nothing but the response. -/
theorem exec_isc_reports_complete (h : exec .isc s = .next t) (hr : t.responses = s.responses ++ [[0x01#8]]) :
    s.fault = 0x00#8 ∧ s.state = stComplete ∧ t = s.respond [statusByte true] := by
  obtain ⟨hf, rfl⟩ := exec_isc_eq_next.1 h
  split at hr
  case isTrue hst => exact ⟨hf, hst, if_pos hst⟩
  case isFalse => simp [statusByte] at hr

/-- Settles O15: `[01]` means Complete, where a clean state has nothing pending, and so `RELEASE` finds what it needs. -/
theorem iscReportsComplete : Obligations.IscReportsComplete := by
  refine ⟨operandless_of_row .isc (by decide), fun s hf => exec_isc_eq_next.2 ⟨hf, ?_⟩, fun s t hc h hr => ?_⟩
  · split
    case isTrue hst => rw [if_pos (show s.state = stComplete from hst)]; rfl
    case isFalse hst => rw [if_neg (show ¬ s.state = stComplete from hst)]; rfl
  · obtain ⟨hf, hst, rfl⟩ := exec_isc_reports_complete h hr
    obtain ⟨-, -, -, hcomplete⟩ := hc
    have hp : s.pend = 0#8 := hcomplete hst
    exact ⟨hp, exec_release_eq_next.2 ⟨hf, (if_pos ⟨hst, hp⟩).symm⟩⟩

end Sys2Proof.Machine

/-! ## What stops the block (60_exceptions.md R70 to R75) -/

namespace Sys2Proof.Machine

variable {s t : State}

/-! ### An illegal word -/

/-- 60_exceptions.md R71, as an instruction. -/
theorem exec_illegal_of_running (hf : s.fault = 0x00#8) (cw : Word) :
    exec (.illegal cw) s = .next (s.setFault .illegalCommand cw) :=
  exec_illegal_eq_next.2 ⟨hf, rfl⟩

/-- Settles O18: the word's row is the illegal one, so on the port it runs the instruction that carries it. -/
theorem illegalWordIsRecorded : Obligations.IllegalWordIsRecorded := by
  refine ⟨fun s cw hf => exec_illegal_of_running hf cw, fun s op arg hf hill => ?_⟩
  obtain ⟨hwf, henc⟩ := (OpcodeRow.illegal hill).encode_eq
  exact (encodedCommandOnThePortRuns _ _ s hwf henc hf).trans (exec_illegal_of_running hf _)

/-! ### The ways to stop -/

/-- A body that keeps `FAULT` when it goes through stops the block only by raising. -/
theorem finish_stops {r : Except Stop State} (hok : r = .ok t → t.fault = s.fault) (hf : s.fault = 0x00#8)
    (hne : t.fault ≠ 0x00#8) (h : finish s r = .next t) :
    ∃ c info, r = .error (.raised c info) ∧ t = s.setFault c info :=
  (finish_eq_next.1 h).resolve_left fun hr => hne ((hok hr).trans hf)

theorem enqueue_keeps_fault {data : List Byte} (h : enqueue data s = .ok t) : t.fault = s.fault := by
  obtain ⟨m, p, u, r, rfl, -, rfl | ⟨b, -, -, -, rfl⟩⟩ := enqueue_shape h <;> rfl

theorem readOut_keeps_fault {m : Byte} (h : readOut m s = .ok t) : t.fault = s.fault := by
  obtain ⟨-, r, out, rfl⟩ | ⟨-, rfl⟩ := readOut_shape h <;> rfl

theorem complete_keeps_fault {rx : Byte} (h : complete rx s = .ok t) : t.fault = s.fault := by
  obtain ⟨u, rfl, -, -, ⟨-, b, -, rfl⟩ | ⟨-, rfl⟩⟩ := complete_shape h <;> rfl

/-- `i` raises the cause `c` with `info` in the state `s`: an illegal word always, `ENQ`, `READ` and `DONE` where their body
does, and no other instruction (60_exceptions.md R70). -/
inductive Raises (s : State) (c : Cause) (info : Word) : Instr → Prop
  | illegal (hc : c = .illegalCommand) : Raises s c info (.illegal info)
  | enq {data : List Byte} (h : enqueue data s = .error (.raised c info)) : Raises s c info (.enq data)
  | read {m : Byte} (h : readOut m s = .error (.raised c info)) : Raises s c info (.read m)
  | done {rx : Byte} (h : complete rx s = .error (.raised c info)) : Raises s c info (.done rx)

/-- 60_exceptions.md R73: an instruction that stops the block raised a cause, and changed nothing but the record. -/
theorem exec_stops {i : Instr} (h : exec i s = .next t) (hne : t.fault ≠ 0x00#8) :
    ∃ c info, Raises s c info i ∧ t = s.setFault c info := by
  cases i with
  | init => obtain ⟨hf, rfl⟩ := exec_init_eq_next.1 h; exact absurd hf hne
  | attach => obtain ⟨hf, rfl⟩ := exec_attach_eq_next.1 h; split at hne <;> exact absurd hf hne
  | release => obtain ⟨hf, rfl⟩ := exec_release_eq_next.1 h; split at hne <;> exact absurd hf hne
  | enq data =>
    obtain ⟨hf, h⟩ := exec_enq_eq_next.1 h
    obtain ⟨c, info, hr, ht⟩ := finish_stops enqueue_keeps_fault hf hne h
    exact ⟨c, info, .enq hr, ht⟩
  | read m =>
    obtain ⟨hf, h⟩ := exec_read_eq_next.1 h
    obtain ⟨c, info, hr, ht⟩ := finish_stops readOut_keeps_fault hf hne h
    exact ⟨c, info, .read hr, ht⟩
  | isc => obtain ⟨hf, rfl⟩ := exec_isc_eq_next.1 h; split at hne <;> exact absurd hf hne
  | poll => obtain ⟨hf, rfl⟩ := exec_poll_eq_next.1 h; exact absurd hf hne
  | illegal cw => exact ⟨_, cw, .illegal rfl, (exec_illegal_eq_next.1 h).2⟩
  | done rx =>
    obtain ⟨hf, -, h⟩ := exec_done_eq_next.1 h
    obtain ⟨c, info, hr, ht⟩ := finish_stops complete_keeps_fault hf hne h
    exact ⟨c, info, .done hr, ht⟩
  | corrupt v => obtain ⟨hf, -, rfl⟩ := exec_corrupt_eq_next.1 h; exact absurd hf hne

/-- Settles O30: a stop is a record on the state before the step, and a stopped block answers `stopped` to everything. -/
theorem stoppingStepDiscardsItsEffects : Obligations.StoppingStepDiscardsItsEffects := by
  refine ⟨fun i s t _ h hne => ?_, fun s hf => ?_⟩
  · obtain ⟨c, info, -, rfl⟩ := exec_stops h hne
    rfl
  · obtain ⟨hstep, hexec⟩ := noStepIsAnsweredByName.1 s hf
    exact ⟨fun t => by simp [hstep], fun i t => by simp [hexec i]⟩

/-! ### The stops that a state meeting the invariant reaches -/

/-- 60_exceptions.md R74: all that can stop `ENQ` is the transfer in flight that its oldest byte meets. -/
theorem enqueue_raises {data : List Byte} {e : Stop} (h : s.Inv) (he : enqueue data s = .error e) :
    s.busy = true ∧ ∃ b, (s.pendingCells ++ data.map some).head? = some (some b) ∧
      e = .raised .writeCollision (infoOfByte b) := by
  obtain ⟨m, hfill, hinv, hcells⟩ := fillBuffer_of_inv h data
  have hstart := State.queued_startsTransfer h.1 data m
  by_cases hs : enqStarts data s
  · obtain ⟨b, hb, hhead⟩ := State.queued_oldest hinv hcells (State.queued_pend h.1 data m ▸ hs.2)
    have hsend := startTransfer_of_oldest (hstart.2 hs) hinv.1.2.1 hb
    by_cases hbusy : s.busy = true
    · have ho := enqueue_of_startTransfer_error hfill (hsend.trans (if_pos hbusy))
      exact ⟨hbusy, b, hhead, Except.error.inj (he.symm.trans ho)⟩
    · have ho := enqueue_of_startTransfer hfill (hsend.trans (if_neg hbusy))
      cases he.symm.trans ho
  · have ho := enqueue_of_startTransfer hfill (startTransfer_eq_ok.2 (.inl ⟨by simpa using mt hstart.1 hs, rfl⟩))
    cases he.symm.trans ho

/-- 60_exceptions.md R75: `READ` finds every unread byte written. -/
theorem readOut_ne_error {m : Byte} {e : Stop} (h : s.Inv) : readOut m s ≠ .error e := by
  obtain ⟨-, out, -, ho⟩ | ⟨-, ho⟩ := readOut_of_inv h m <;> simp [ho]

/-- 60_exceptions.md R72: all that can stop `DONE` is that nothing is pending. -/
theorem complete_raises {rx : Byte} {e : Stop} (h : s.Inv) (he : complete rx s = .error e) :
    s.pend = 0#8 ∧ e = .raised .spuriousCompletion (infoOfByte rx) := by
  obtain ⟨hp, ho⟩ | ⟨-, -, ⟨-, b, -, ho⟩ | ⟨-, ho⟩⟩ := complete_of_inv h rx
  · exact ⟨zext_eq_zero.1 hp, Except.error.inj (he.symm.trans ho)⟩
  all_goals cases he.symm.trans ho

/-- Settles O32: of the four ways to raise, `READ`'s is closed by the invariant, and each other has one cause. -/
theorem eachCodeHasItsInstruction : Obligations.EachCodeHasItsInstruction := by
  intro i s t hinv _ h hne
  obtain ⟨c, info, hraises, rfl⟩ := exec_stops h hne
  cases hraises with
  | illegal hc => exact .inl ⟨info, rfl, congrArg Cause.code hc, rfl⟩
  | enq he =>
    obtain ⟨hbusy, b, hhead, hstop⟩ := enqueue_raises hinv he
    cases hstop
    exact .inr (.inr ⟨_, b, rfl, rfl, rfl, hbusy, hhead⟩)
  | read he => exact absurd he (readOut_ne_error hinv)
  | done he =>
    obtain ⟨hp, hstop⟩ := complete_raises hinv he
    cases hstop
    exact .inr (.inl ⟨_, rfl, rfl, rfl, hp⟩)

end Sys2Proof.Machine

/-! ## `INIT`, and what it leaves in flight (70_reset_and_hazards.md R83, R93) -/

namespace Sys2Proof.Machine

variable {s : State}

/-- 60_exceptions.md R72: with nothing pending, the body of `DONE` raises before it touches any cell. -/
theorem complete_nothing_pending (hp : s.pend = 0#8) (rx : Byte) :
    complete rx s = .error (.raised .spuriousCompletion (infoOfByte rx)) :=
  if_pos (zext_eq_zero.2 hp)

/-- Such a completion is recorded in every running state with a transfer in flight, whatever its other registers hold: unlike
`exec_done_spurious`, this asks for no invariant. -/
theorem exec_done_of_nothing_pending (hf : s.fault = 0x00#8) (hb : s.busy = true) (hp : s.pend = 0#8) (rx : Byte) :
    exec (.done rx) s = .next (s.setFault .spuriousCompletion (infoOfByte rx)) :=
  exec_done_eq_next.2 ⟨hf, hb, finish_eq_next.2 (.inr ⟨_, _, complete_nothing_pending hp rx, rfl⟩)⟩

/-- The state after an `INIT` (R83): the power-on values in `STATE`, `RIDX`, `WIDX` and `PEND` alone. -/
def State.afterInit (s : State) : State :=
  { s with state := 0x00#8, ridx := 0#8, widx := 0#8, pend := 0#8, responses := s.responses ++ [[]] }

theorem exec_init_of_running (hf : s.fault = 0x00#8) : exec .init s = .next s.afterInit :=
  exec_init_eq_next.2 ⟨hf, rfl⟩

/-- At power-on the four registers hold already what `INIT` writes. -/
theorem State.reset_afterInit :
    State.reset.afterInit = { State.reset with responses := State.reset.responses ++ [[]] } := rfl

/-- Settles O12: `INIT` is its one next state; it clears `PEND` and keeps `BUSY`, and so the completion that comes finds
nothing pending. -/
theorem initResetsTheChannel : Obligations.InitResetsTheChannel := by
  refine ⟨operandless_of_row .init (by decide), fun s hf => exec_init_of_running hf, ?_, fun s rx hf hb => ?_⟩
  · rw [← State.reset_afterInit]
    exact exec_init_of_running rfl
  · exact ⟨s.afterInit, exec_init_of_running hf, hb, rfl, exec_done_of_nothing_pending (s := s.afterInit) hf hb rfl rx⟩

end Sys2Proof.Machine
